-- ==== Sys2Proof/Word.lean ====
section
/-! DEFINITION. The word types of the SHA-256 core: 32-bit words (spec 00 R3, 41 R120), bytes, padded blocks. -/

namespace Sys2Proof

/-- A 32-bit unsigned word (00 R3). Its `+` is the spec's `+32`, addition modulo 2^32 (41 R120). -/
abbrev Word := BitVec 32

/-- A byte. -/
abbrev Byte := BitVec 8

/-- A block of padded input: a byte sequence, first byte first. Every block the padder makes has 64 bytes
(10 R28, 40 R109); that it has is an invariant (`Safety.lean`), and a LOAD of any other is a fault (93 §1). -/
abbrev Block := List Byte

end Sys2Proof
end

