-- ==== Sys2Proof/Config.lean ====
section
/-! DEFINITION. What is fixed for one machine: the parameters of spec 00 R3 and R4, and the open parameter BASE. -/

namespace Sys2Proof

/-- Which 128-byte slot of the host's address space the register window occupies. OPEN in the spec (00 R4, 92 D3):
an uninterpreted constant, so nothing can be proved about its value (log 10). -/
opaque Config.baseSlot : Nat

/-- Size of the register window in bytes (00 R4). -/
def Config.windowBytes : Nat := 128

/-- `BASE`, the host address of the register window, aligned to 128 bytes (00 R4). -/
def Config.base : Int := (Config.windowBytes : Int) * (Config.baseSlot : Int)

/-- Bytes of a block (00 R3). -/
def Config.blockBytes : Nat := 64

/-- The first message length that is too large: 2^61 bytes (00 R3, 40 R105, 60 R203). -/
def Config.lengthLimit : Nat := 2 ^ 61

end Sys2Proof
end

