-- ==== Sys2Proof/Syntax.lean ====
section
/-! DEFINITION. The instructions of the core: the commands the host writes to CMD (spec 30 R70, R71). -/

namespace Sys2Proof

/-- One constructor per row of the opcode table (30 R71, R75). NBYTES is an unsigned 6-bit field (30 R72), so its
type admits exactly the tail lengths 0..63. -/
inductive Instr where
  /-- INIT (42 R163): start a new message, or abort. -/
  | init
  /-- BLOCK (42 R164): absorb one full 64-byte chunk that is not the last. -/
  | block
  /-- FINAL nb (42 R165): absorb the last `nb` bytes of the message, pad, finish. -/
  | final (nb : BitVec 6)
deriving DecidableEq, Repr

end Sys2Proof
end

