-- ==== Sys2Proof/WellFormed.lean ====
section
/-! DEFINITION. Well-formed commands: spec 30 R74 on the three fields of a command word. -/

namespace Sys2Proof

/-- The fields of a command word (30 R70), before any check: OP = v[3:0], NBYTES = v[9:4], RSV = v[31:10]. -/
structure CmdFields where
  op     : BitVec 4
  nbytes : BitVec 6
  rsv    : BitVec 22
deriving DecidableEq, Repr

/-- RSV must be 0 in every command (30 R73). -/
def CmdFields.rsvOk (c : CmdFields) : Bool := c.rsv == 0

/-- OP must select INIT, BLOCK or FINAL (30 R71). -/
def CmdFields.opOk (c : CmdFields) : Bool := c.op == 1 || c.op == 2 || c.op == 3

/-- NBYTES must be 0 except in a FINAL (30 R72). -/
def CmdFields.nbytesOk (c : CmdFields) : Bool := c.op == 3 || c.nbytes == 0

/-- The three checks together. -/
def CmdFields.wf (c : CmdFields) : Bool := c.rsvOk && c.opOk && c.nbytesOk

/-- The fields an instruction is written with (30 R75). -/
def Instr.fields : Instr → CmdFields
  | .init => { op := 1, nbytes := 0, rsv := 0 }
  | .block => { op := 2, nbytes := 0, rsv := 0 }
  | .final nb => { op := 3, nbytes := nb, rsv := 0 }

/-- An instruction is well-formed when its fields pass the checks of 30 R74. -/
def Instr.wf (i : Instr) : Bool := i.fields.wf

end Sys2Proof
end

