-- ==== Sys2Proof/Decode.lean ====
section
/-! DEFINITION. Decoding of command words (spec 30), the encoder, and the address map of the register window
(spec 20 R52, R53), both ways. -/

namespace Sys2Proof

/-! ### Command words -/

/-- The fields of a word, cut as 30 R70 says. -/
def fieldsOf (v : Word) : CmdFields :=
  { op := v.extractLsb' 0 4, nbytes := v.extractLsb' 4 6, rsv := v.extractLsb' 10 22 }

/-- `legal(v)` of 30 R74, in the spec's own form. -/
def legalWord (v : Word) : Bool :=
  v.extractLsb' 10 22 == 0 &&
    ((v.extractLsb' 0 4 == 1 && v.extractLsb' 4 6 == 0) ||
     (v.extractLsb' 0 4 == 2 && v.extractLsb' 4 6 == 0) ||
      v.extractLsb' 0 4 == 3)

/-- Why a word is no command. Every one of them raises the same E_BAD_CMD (60 R204); the names and the order in which
they are tried are the model's (DESIGN CHOICE, log 19; safe: no effect depends on them). -/
inductive Illegal where
  /-- RSV ≠ 0 (30 R73). -/
  | reservedBits
  /-- OP is 0x0 or 0x4 to 0xF (30 R71). -/
  | reservedOp
  /-- NBYTES ≠ 0 in an INIT or a BLOCK (30 R72). -/
  | nbytesNotZero
deriving DecidableEq, Repr

/-- The decoder: total on 32-bit words, rejecting by name (30 R70 to R75). -/
def decode (v : Word) : Except Illegal Instr :=
  let c := fieldsOf v
  if c.rsv ≠ 0 then .error .reservedBits
  else if c.op = 1 then (if c.nbytes = 0 then .ok .init else .error .nbytesNotZero)
  else if c.op = 2 then (if c.nbytes = 0 then .ok .block else .error .nbytesNotZero)
  else if c.op = 3 then .ok (.final c.nbytes)
  else .error .reservedOp

/-- The encoder: the word of an instruction, from the patterns of 30 R75 and the pseudo-instructions of 30 R78. -/
def encode : Instr → Word
  | .init => 0x00000001
  | .block => 0x00000002
  | .final nb => 0x00000003 ||| (nb.zeroExtend 32 <<< 4)

/-- One row of the decode table of 30 R75. -/
structure TableRow where
  mnemonic  : String
  matchBits : Word
  maskBits  : Word
deriving DecidableEq, Repr

/-- The decode table of 30 R75, as the spec prints it. -/
def decodeTable : List TableRow :=
  [ ⟨"INIT", 0x00000001, 0xFFFFFFFF⟩, ⟨"BLOCK", 0x00000002, 0xFFFFFFFF⟩, ⟨"FINAL", 0x00000003, 0xFFFFFC0F⟩ ]

/-- A word matches a row when the masked word is the row's match (30 R75). -/
def TableRow.matches (r : TableRow) (v : Word) : Bool := v &&& r.maskBits == r.matchBits

/-- The mnemonic of an instruction, as the opcode table spells it. -/
def Instr.mnemonic : Instr → String
  | .init => "INIT"
  | .block => "BLOCK"
  | .final _ => "FINAL"

/-- The instruction the decoder reads from a table word of `nbits` bits. Every command is one 32-bit word (30 R70), moved
whole over the bus (20 R57), so no byte order arises; bits at `nbits` and above are 0 (log 22). -/
def decodeTableWord (nbits w : Nat) : Option Instr :=
  let v := w % 2 ^ nbits
  if v < 2 ^ 32 then (decode (BitVec.ofNat 32 v)).toOption else none

/-! ### The register window -/

/-- The registers of the window by name (20 R53), with the four reserved offsets. -/
inductive Reg where
  /-- CMD, WO (10 R35). -/
  | cmd
  /-- STATUS, RO (10 R39). -/
  | status
  /-- MSGLEN_LO, RO (10 R36). -/
  | msglenLo
  /-- MSGLEN_HI, RO (10 R36). -/
  | msglenHi
  /-- A reserved offset 0x10 + 4·i (10 R40). -/
  | reserved (i : Fin 4)
  /-- DIGESTi, RO (10 R37). -/
  | digest (i : Fin 8)
  /-- DATAi, RW (10 R38). -/
  | data (i : Fin 16)
deriving DecidableEq, Repr

/-- The offset of a register in the window (20 R53). -/
def Reg.offset : Reg → Nat
  | .cmd => 0x00
  | .status => 0x04
  | .msglenLo => 0x08
  | .msglenHi => 0x0C
  | .reserved i => 0x10 + 4 * i
  | .digest i => 0x20 + 4 * i
  | .data i => 0x40 + 4 * i

/-- The register at word number `k` of the window, the offset being 4·k (20 R53). -/
def Reg.atWord (k : Fin 32) : Reg :=
  if k.val = 0 then .cmd
  else if k.val = 1 then .status
  else if k.val = 2 then .msglenLo
  else if k.val = 3 then .msglenHi
  else if k.val < 8 then .reserved (Fin.ofNat 4 (k.val - 4))
  else if k.val < 16 then .digest (Fin.ofNat 8 (k.val - 8))
  else .data (Fin.ofNat 16 (k.val - 16))

/-- A host access, before any check: the byte offset from BASE (negative below the window) and the width in bytes. -/
structure Access where
  off   : Int
  bytes : Nat := 4
deriving DecidableEq, Repr

/-- The 32-bit access that names a register (30 R77). -/
def Access.reg (r : Reg) : Access := { off := (r.offset : Int), bytes := 4 }

/-- The access to an absolute host address (20 R50). -/
def Access.atAddress (addr : Int) (bytes : Nat) : Access := { off := addr - Config.base, bytes := bytes }

/-- Why an access is outside the interface (20 R52). The order in which the reasons are tried is the model's (log 9). -/
inductive BadAccess where
  | width
  | misaligned
  | outsideWindow
deriving DecidableEq, Repr

/-- The register an access reaches, or why it is outside the interface (20 R52, R53). -/
def decodeAccess (a : Access) : Except BadAccess Reg :=
  if a.bytes ≠ 4 then .error .width
  else if a.off % 4 ≠ 0 then .error .misaligned
  else if a.off < 0 ∨ 0x7C < a.off then .error .outsideWindow
  else .ok (Reg.atWord (Fin.ofNat 32 (a.off.toNat / 4)))

end Sys2Proof
end

