-- ==== Sys2Proof/Machine/HostLine.lean ====
section
/-! DEFINITION. The host's side: the lines of a host program (spec 30 R77), the host as an agent, and the turns of the
scheduler (spec 20 R59). Plain data, no behaviour. -/

namespace Sys2Proof.Machine

/-- Names and labels of a host program (30 R77), numbered. -/
abbrev HostName := Nat

/-- One line of a host program (30 R77). An access stands where the notation has a register name or `@off`; it also has
a width, so that the accesses 20 R52 refuses can be written. -/
inductive HostLine where
  /-- `wr R, imm32`: BusWrite (42 R160). -/
  | wr (a : Access) (v : Word)
  /-- `rd R`: BusRead (42 R161), its value recorded in the observation. -/
  | rd (a : Access)
  /-- `rd R -> x`: the same, and the value is also named `x`. -/
  | rdTo (a : Access) (x : HostName)
  /-- `label:` -/
  | label (l : HostName)
  /-- `if x[k] = b goto label`. -/
  | ifBit (x : HostName) (k : Nat) (b : Bool) (l : HostName)
deriving DecidableEq, Repr

/-- The host: the one agent that reads and writes the register window (00 §6, 20 R50). The model's own state (log 6). -/
structure HostAgent where
  /-- The whole host program, where labels are looked up. -/
  prog  : List HostLine
  /-- The lines still to run; the run ends when there is none (42 R168). -/
  lines : List HostLine
  /-- The values named by `rd R -> x`, the latest first (30 R77). -/
  named : List (HostName × Word)
  /-- The observation: the values the BusReads returned, in order (42 R168). -/
  obs   : List Word
deriving DecidableEq, Repr

/-- Who moves next (20 R59, 70 R230). -/
inductive Turn where
  /-- The host runs its next line. -/
  | host
  /-- The compressor takes an internal step. -/
  | internal
  /-- The reset event happens. -/
  | reset
deriving DecidableEq, Repr

end Sys2Proof.Machine
end

