-- ==== Sys2Proof/Machine/State.lean ====
section
/-! DEFINITION. The state of the core: everything spec 10 gives it (the table of 10 §4), and beside it the host agent and the
scheduler's choice. The reasons a step can stop. The state after reset. -/

namespace Sys2Proof.Machine

/-- The controller phase (10 R26). -/
inductive Phase where
  | ready
  | busy
  | done
  | error
deriving DecidableEq, Repr

/-- The compressor step state (10 R27): the next internal step. -/
inductive CState where
  | idle
  | rnd (t : Fin 64)
  | fold
deriving DecidableEq, Repr

/-- The working registers a..h (10 R21). -/
structure Regs where
  a : Word
  b : Word
  c : Word
  d : Word
  e : Word
  f : Word
  g : Word
  h : Word
deriving DecidableEq, Repr

/-- The machine. The first ten fields are the hardware's, the last two the agents' around it. -/
structure State where
  /-- Hash state H[0..7] (10 R20). -/
  h       : Vector Word 8
  /-- Working registers a..h (10 R21). -/
  reg     : Regs
  /-- Message schedule W[0..63] (10 R22). -/
  w       : Vector Word 64
  /-- Message length counter LEN, in bytes (10 R25). -/
  len     : BitVec 64
  /-- Controller phase (10 R26). -/
  phase   : Phase
  /-- Compressor step state (10 R27). -/
  cstate  : CState
  /-- Block queue Q, head first (10 R28). -/
  q       : List Block
  /-- Final flag FIN (10 R29). -/
  fin     : Bool
  /-- Error code ERRCODE (10 R30). -/
  errcode : BitVec 4
  /-- Staging buffer DATA[0..15] (10 R31). -/
  data    : Vector Word 16
  /-- The host and its program (log 6). -/
  host    : HostAgent
  /-- The scheduler's choice: the turns to come, the next one first (10 R34, 20 R59; log 1). -/
  sched   : List Turn
deriving DecidableEq, Repr

/-- Why the machine stops with a fault. Both are safe: the model stops in states that the invariants of 10 R32 exclude. -/
inductive Fault where
  /-- LOAD found a block that has not 64 bytes at the head of Q. Raised by the internal step LOAD. Safe: spec 93 §1 asks for a
  fault, and 40 R109 says that the interface cannot make it happen (log 12). -/
  | blockNotWhole
  /-- An internal step was due (phase = BUSY, cstate = IDLE) and Q was empty. Raised by the internal step LOAD. Safe: 10 R32 and
  41 R139 exclude that state (log 13). -/
  | loadFromEmptyQueue
deriving DecidableEq, Repr

/-- Why a step has no meaning. All are safe: the model stops. -/
inductive Refusal where
  /-- An instruction that has no meaning yet. Raised by no arm: every instruction has its meaning. -/
  | notModelled (mnemonic : String)
  /-- A host access that is not 32 bits wide (20 R52, 93 §1). Raised by the host lines `wr` and `rd`. -/
  | accessWidth
  /-- A host access at an offset that is no multiple of 4 (20 R52, 93 §1). Raised by the host lines `wr` and `rd`. -/
  | accessMisaligned
  /-- A host access outside the 128-byte window (20 R52, 93 §1). Raised by the host lines `wr` and `rd`. -/
  | accessOutsideWindow
  /-- `if x[k] = b goto l` where no line has named x yet: 30 R77 gives it no meaning (log 7). -/
  | unnamedValue
  /-- `if x[k] = b goto l` with k above 31: a 32-bit word has no such bit (30 R77, 00 §5; log 7). -/
  | bitOutsideWord
  /-- A taken jump to a label that the host program does not hold: 30 R77 gives it no meaning (log 7). Raised by the host line
  `if … goto`, when its bit is as asked. -/
  | unknownLabel
deriving DecidableEq, Repr

/-- Working registers all zero. The spec gives a..h no reset value (10 R21, 70 R231): DESIGN CHOICE, unsafe (log 4). -/
def Regs.zero : Regs := ⟨0, 0, 0, 0, 0, 0, 0, 0⟩

/-- The machine right after reset (70 R230). W and a..h have no reset value in the spec: zero, DESIGN CHOICE (log 4). No host
program is loaded and the scheduler has chosen nothing (log 8, log 1). -/
def State.reset : State where
  h       := H0
  reg     := Regs.zero
  w       := Vector.replicate 64 0
  len     := 0
  phase   := .ready
  cstate  := .idle
  q       := []
  fin     := false
  errcode := 0
  data    := Vector.replicate 16 0
  host    := { prog := [], lines := [], named := [], obs := [] }
  sched   := []

end Sys2Proof.Machine
end

