-- ==== Sys2Proof/Machine/Flags.lean ====
section
/-! DEFINITION. The status flags. The arithmetic sets none (spec 41 R120); the only flags are the bits of STATUS, functions of the
phase and of ERRCODE (spec 10 R39). -/

namespace Sys2Proof.Machine

/-- STATUS.BUSY, bit 0 (10 R39). -/
def busyFlag (s : State) : Bool := s.phase == .busy

/-- STATUS.DONE, bit 1 (10 R39). -/
def doneFlag (s : State) : Bool := s.phase == .done

/-- STATUS.ERR, bit 2 (10 R39). -/
def errFlag (s : State) : Bool := s.phase == .error

/-- A flag at bit k of a register, the other bits 0. -/
def flagAt (k : Nat) (b : Bool) : Word := (BitVec.ofBool b).zeroExtend 32 <<< k

/-- The value of STATUS (42 R161): `zext_32(ERRCODE) << 4 or (phase = ERROR) << 2 or (phase = DONE) << 1 or (phase = BUSY)`. -/
def statusWord (s : State) : Word :=
  (s.errcode.zeroExtend 32 <<< 4) ||| flagAt 2 (errFlag s) ||| flagAt 1 (doneFlag s) ||| flagAt 0 (busyFlag s)

end Sys2Proof.Machine
end

