-- ==== Sys2Proof/Machine/Operands.lean ====
section
/-! DEFINITION. Operands and byte order: big-endian conversions (spec 00 §5, 20 R55, R56), the DATA chunk and the message tail
(spec 20 R55, 30 R72). -/

namespace Sys2Proof.Machine

/-- `BE32(S, i)`: the word of the four bytes at i, the first most significant (00 §5). It is defined where S has these bytes; that a missing
byte reads as 0 is the model's choice (DESIGN CHOICE, log 23). -/
def be32 (S : List Byte) (i : Nat) : Word :=
  S.getD i 0 ++ S.getD (i + 1) 0 ++ S.getD (i + 2) 0 ++ S.getD (i + 3) 0

/-- `BE32bytes(v)`: the four bytes of a word, most significant first (00 §5). -/
def be32bytes (v : Word) : List Byte :=
  [v.extractLsb' 24 8, v.extractLsb' 16 8, v.extractLsb' 8 8, v.extractLsb' 0 8]

/-- `BE64bytes(v)`: the eight bytes of a 64-bit value, most significant first (00 §5). -/
def be64bytes (v : BitVec 64) : List Byte :=
  [v.extractLsb' 56 8, v.extractLsb' 48 8, v.extractLsb' 40 8, v.extractLsb' 32 8,
   v.extractLsb' 24 8, v.extractLsb' 16 8, v.extractLsb' 8 8, v.extractLsb' 0 8]

/-- The number a byte sequence writes, most significant byte first. -/
def beNat (S : List Byte) : Nat := S.foldl (fun n b => 256 * n + b.toNat) 0

/-- The words of a vector serialized in order, each big-endian (20 R55 for DATA, 41 R135 for the digest). -/
def serialize {n : Nat} (ws : Vector Word n) : List Byte := ws.toList.flatMap be32bytes

/-- The 64-byte chunk C that DATA[0..15] holds (20 R55). -/
def chunk (data : Vector Word 16) : List Byte := serialize data

/-- NBYTES zero-extended (30 R72), as a count. -/
def nbytesOf (nb : BitVec 6) : Nat := nb.toNat

/-- The message tail T of a FINAL: the first nb bytes of the chunk (30 R72, 42 R165). -/
def tail (data : Vector Word 16) (nb : BitVec 6) : List Byte := (chunk data).take (nbytesOf nb)

/-- The working registers as the vector `reg[0..7]` = (a, …, h) (10 R21). -/
def Regs.toVec (r : Regs) : Vector Word 8 := #v[r.a, r.b, r.c, r.d, r.e, r.f, r.g, r.h]

/-- The working registers holding eight words in order (10 R21, 41 R131). -/
def Regs.ofVec (x : Vector Word 8) : Regs := ⟨x[0], x[1], x[2], x[3], x[4], x[5], x[6], x[7]⟩

end Sys2Proof.Machine
end

