-- ==== Sys2Proof/Machine/Ops.lean ====
section
/-! DEFINITION. The shared operations: error entry (spec 60 R202) and the return from it (42 R163, 60 R208), the reset event (70 R230),
the reads of the registers of the window (42 R161), and what the host agent does to itself. -/

namespace Sys2Proof.Machine

/-! ### Errors -/

/-- The error codes that exist (60 R201). -/
inductive ErrorCode where
  /-- The message would reach 2^61 bytes (60 R203). -/
  | tooLarge
  /-- Illegal command word (60 R204). -/
  | badCmd
  /-- BLOCK or FINAL in phase BUSY (60 R205). -/
  | busy
  /-- BLOCK or FINAL in phase DONE (60 R206). -/
  | seq
deriving DecidableEq, Repr

/-- The value ERRCODE takes (60 R201). -/
def ErrorCode.code : ErrorCode → BitVec 4
  | .tooLarge => 1
  | .badCmd => 2
  | .busy => 3
  | .seq => 4

/-- `raise Error(code)`, the one error-entry rule (60 R202): the work in flight is abandoned, nothing else changes. -/
def raiseError (e : ErrorCode) (s : State) : State :=
  { s with phase := .error, errcode := e.code, q := [], cstate := .idle }

/-- The start of a message (42 R163), which is also the only way out of ERROR beside reset (60 R208). DATA, W and a..h stay. -/
def startMessage (s : State) : State :=
  { s with h := H0, len := 0, q := [], cstate := .idle, fin := false, errcode := 0, phase := .ready }

/-- The reset event (70 R230): the start of a message, and DATA cleared. W and a..h get the value that `State.reset` gives
them (DESIGN CHOICE, log 5). The host and the scheduler are other agents, and keep what they hold (log 18). -/
def powerReset (s : State) : State :=
  { State.reset with host := s.host, sched := s.sched }

/-! ### Absorbing work -/

/-- The padder hands blocks over (40 R109): they are queued, the new length and FIN are recorded, the phase is BUSY. -/
def enqueue (blocks : List Block) (len : BitVec 64) (fin : Bool) (s : State) : State :=
  { s with q := blocks, len := len, fin := fin, phase := .busy }

/-- The checks of 42 R162 on a legal BLOCK or FINAL: ignored in ERROR, E_BUSY in BUSY, E_SEQ in DONE, and the command itself
in READY. -/
def inReady (s : State) (run : State → State) : State :=
  match s.phase with
  | .error => s
  | .busy => raiseError .busy s
  | .done => raiseError .seq s
  | .ready => run s

/-! ### Register reads -/

/-- The value of DIGESTi: H[i] in DONE, 0 in every other phase (10 R37, 42 R166). -/
def digestWord (i : Fin 8) (s : State) : Word := if s.phase = .done then s.h[i] else 0

/-- `BusRead`: the value of a register (42 R161). No read changes any state (20 R54). -/
def busRead (r : Reg) (s : State) : Word :=
  match r with
  | .cmd => 0
  | .status => statusWord s
  | .msglenLo => s.len.extractLsb' 0 32
  | .msglenHi => s.len.extractLsb' 32 32
  | .reserved _ => 0
  | .digest i => digestWord i s
  | .data i => s.data[i]

/-- A write of DATAi (42 R160). -/
def writeData (i : Fin 16) (v : Word) (s : State) : State := { s with data := s.data.set i v }

/-! ### The host agent -/

/-- The host moves to the given lines. -/
def setLines (ls : List HostLine) (s : State) : State := { s with host := { s.host with lines := ls } }

/-- A value a BusRead returned is recorded in the observation (42 R168). -/
def observe (v : Word) (s : State) : State := { s with host := { s.host with obs := s.host.obs ++ [v] } }

/-- A value is named (30 R77). Naming again hides the earlier value (log 20). -/
def nameValue (x : HostName) (v : Word) (s : State) : State :=
  { s with host := { s.host with named := (x, v) :: s.host.named } }

/-- The lines after a label: those after its first occurrence in the program (30 R77, log 20). -/
def linesAfter (l : HostName) : List HostLine → Option (List HostLine)
  | [] => none
  | line :: rest => if line = .label l then some rest else linesAfter l rest

/-- The host has run its last line (42 R168). -/
def hostDone (s : State) : Bool := s.host.lines.isEmpty

end Sys2Proof.Machine
end

