-- ==== Sys2Proof/Machine/Padder.lean ====
section
/-! DEFINITION. sha256_padder (spec 40): the padding function of a whole message (R100) and the padder's tail operation (R107). -/

namespace Sys2Proof.Machine

/-- `zeros(L) = (55 − L) mod 64`, the representative in 0..63 (40 R101). -/
def zeros (L : Nat) : Nat := ((55 - (L : Int)) % 64).toNat

/-- The length field: the 64-bit big-endian encoding of the BIT length 8·L (40 R102). -/
def lengthField (L : BitVec 64) : List Byte := be64bytes (8 * L)

/-- `pad(M)` (40 R100). Its domain is |M| ≤ 2^61 − 1 (40 R105); that it is total, with the bit length taken modulo 2^64 outside, is the
model's choice (DESIGN CHOICE, log 25). -/
def pad (M : List Byte) : List Byte :=
  M ++ [0x80] ++ List.replicate (zeros M.length) 0 ++ lengthField (BitVec.ofNat 64 M.length)

/-- The first n blocks of 64 bytes of a byte sequence. -/
def blocksOf : Nat → List Byte → List Block
  | 0, _ => []
  | n + 1, bs => bs.take Config.blockBytes :: blocksOf n (bs.drop Config.blockBytes)

/-- The 64-byte blocks of a byte sequence (41 R135). The spec takes them of `pad(M)`, whole blocks; that bytes after the last whole block are
left out is the model's choice (log 25). -/
def blocks (bs : List Byte) : List Block := blocksOf (bs.length / Config.blockBytes) bs

/-- `pad_tail(T, L)` (40 R107): one block if the tail has at most 55 bytes, else two. Its domain is |T| ≤ 63, L ≡ |T| (mod 64) and
L ≤ 2^61 − 1; its values outside are the model's choice (DESIGN CHOICE, log 25). -/
def padTail (T : List Byte) (L : BitVec 64) : List Block :=
  let P := T ++ [0x80] ++ List.replicate (zeros T.length) 0 ++ lengthField L
  if T.length ≤ 55 then [P.take 64] else [P.take 64, (P.drop 64).take 64]

end Sys2Proof.Machine
end

