-- ==== Sys2Proof/Machine/Primitives.lean ====
section
/-! DEFINITION. The bit primitives of the compressor (spec 41 R121 to R128). Addition modulo 2^32 (41 R120) is `+` on words. -/

namespace Sys2Proof.Machine

/-- `rotr(x, n)`, circular right rotation (41 R121). Defined for 1 ≤ n ≤ 31 only, so it asks for a proof of that (log 14). -/
def rotr (x : Word) (n : Nat) (_h : 1 ≤ n ∧ n ≤ 31 := by decide) : Word := (x >>> n) ||| (x <<< (32 - n))

/-- `shr(x, n)`, logical right shift (41 R122). Defined for 1 ≤ n ≤ 31 only, so it asks for a proof of that (log 14). -/
def shr (x : Word) (n : Nat) (_h : 1 ≤ n ∧ n ≤ 31 := by decide) : Word := x >>> n

/-- `Ch(e, f, g)` (41 R123). -/
def ch (e f g : Word) : Word := (e &&& f) ^^^ (~~~e &&& g)

/-- `Maj(a, b, c)` (41 R124). -/
def maj (a b c : Word) : Word := (a &&& b) ^^^ (a &&& c) ^^^ (b &&& c)

/-- `Σ0(a)` (41 R125). -/
def bigSigma0 (a : Word) : Word := rotr a 2 ^^^ rotr a 13 ^^^ rotr a 22

/-- `Σ1(e)` (41 R126). -/
def bigSigma1 (e : Word) : Word := rotr e 6 ^^^ rotr e 11 ^^^ rotr e 25

/-- `σ0(x)` (41 R127). -/
def smallSigma0 (x : Word) : Word := rotr x 7 ^^^ rotr x 18 ^^^ shr x 3

/-- `σ1(x)` (41 R128). -/
def smallSigma1 (x : Word) : Word := rotr x 17 ^^^ rotr x 19 ^^^ shr x 10

end Sys2Proof.Machine
end

