-- ==== Sys2Proof/Machine/Compressor.lean ====
section
/-! DEFINITION. sha256_compressor (spec 41): the per-block procedure as pure functions (R129 to R135) and the internal steps LOAD, RND(t),
FOLD (R136 to R139). -/

namespace Sys2Proof.Machine

/-! ### Pure functions -/

/-- `words(B)`: the sixteen big-endian words of a block (41 R129). It is defined for 64-byte blocks only; that missing bytes read as 0 and
excess bytes are not read is the model's choice (DESIGN CHOICE, log 23). -/
def words (B : Block) : Vector Word 16 := Vector.ofFn fun i : Fin 16 => be32 B (4 * i.val)

/-- One step of the schedule expansion (41 R130): `W[j] <- W[j-16] + σ0(W[j-15]) + W[j-7] + σ1(W[j-2])`, for 16 ≤ j ≤ 63; no other j is
used (log 23). -/
def schedStep (W : Vector Word 64) (j : Nat) : Vector Word 64 :=
  W.setIfInBounds j
    (W.getD (j - 16) 0 + smallSigma0 (W.getD (j - 15) 0) + W.getD (j - 7) 0 + smallSigma1 (W.getD (j - 2) 0))

/-- `sched(w)`: the schedule of sixteen words, W[16..63] in increasing order (41 R130). -/
def sched (w : Vector Word 16) : Vector Word 64 :=
  (List.range' 16 48).foldl schedStep (Vector.ofFn fun i : Fin 64 => w.getD i.val 0)

/-- T1 of a round (41 R132). -/
def temp1 (t : Fin 64) (r : Regs) (W : Vector Word 64) : Word := r.h + bigSigma1 r.e + ch r.e r.f r.g + K t + W[t]

/-- T2 of a round (41 R132). -/
def temp2 (r : Regs) : Word := bigSigma0 r.a + maj r.a r.b r.c

/-- `round(t, (a, …, h), W)` (41 R132). -/
def round (t : Fin 64) (r : Regs) (W : Vector Word 64) : Regs :=
  { a := temp1 t r W + temp2 r, b := r.a, c := r.b, d := r.c, e := r.d + temp1 t r W, f := r.e, g := r.f, h := r.g }

/-- The state fold (41 R133): `H[i] +32 reg[i]`. -/
def foldHash (X : Vector Word 8) (r : Regs) : Vector Word 8 := Vector.ofFn fun i : Fin 8 => X[i] + r.toVec[i]

/-- The working registers after the first n rounds (41 R134's `r_n`), for n ≤ 64; all 64 when n = 64 (90 C1). No other n is used (log 23). -/
def rounds (n : Nat) (W : Vector Word 64) (r : Regs) : Regs :=
  ((List.finRange 64).take n).foldl (fun r t => round t r W) r

/-- `compress(X, B)` (41 R134). Its domain is the 64-byte blocks, and 93 §1 names a fault outside it (60 R200): the internal step LOAD takes
that fault (log 12), so no step reaches a value of this function outside the domain. That the pure function is total, reading a missing
byte as 0 and no excess byte, is the model's choice (DESIGN CHOICE, log 23). -/
def compress (X : Vector Word 8) (B : Block) : Vector Word 8 :=
  foldHash X (rounds 64 (sched (words B)) (Regs.ofVec X))

/-- The chaining values over a block sequence, from X (41 R135). Its domain is `compress`'s, for each block (log 23). -/
def compressAll (X : Vector Word 8) (bs : List Block) : Vector Word 8 := bs.foldl compress X

/-- `digest(M)` (41 R135). Its domain is that of `pad` (40 R105); its value outside is the model's choice (log 25). -/
def digest (M : List Byte) : List Byte := serialize (compressAll H0 (blocks (pad M)))

/-! ### Internal steps -/

/-- LOAD (41 R136). The two faults are of states that 10 R32 and 40 R109 exclude (log 12, log 13). -/
def load (s : State) : Host.Outcome State Fault Refusal :=
  match s.q with
  | [] => .fault .loadFromEmptyQueue
  | B :: rest =>
    if B.length = Config.blockBytes then
      .next { s with q := rest, w := sched (words B), reg := Regs.ofVec s.h, cstate := .rnd 0 }
    else .fault .blockNotWhole

/-- The compressor step state after RND(t): RND(t+1), or FOLD after the last round (41 R137). -/
def afterRound (t : Fin 64) : CState := if h : t.val + 1 < 64 then .rnd ⟨t.val + 1, h⟩ else .fold

/-- RND(t) (41 R137). -/
def rnd (t : Fin 64) (s : State) : State := { s with reg := round t s.reg s.w, cstate := afterRound t }

/-- The phase after a FOLD (41 R138). -/
def phaseAfterFold (s : State) : Phase := if s.q = [] then (if s.fin then .done else .ready) else s.phase

/-- FOLD (41 R138). -/
def fold (s : State) : State := { s with h := foldHash s.h s.reg, cstate := .idle, phase := phaseAfterFold s }

/-- The internal step that cstate selects (10 R27, 41 R139). -/
def internalStep (s : State) : Host.Outcome State Fault Refusal :=
  match s.cstate with
  | .idle => load s
  | .rnd t => .next (rnd t s)
  | .fold => .next (fold s)

/-- An internal step is enabled iff phase = BUSY (41 R139). -/
def internalEnabled (s : State) : Bool := s.phase == .busy

/-- The compressor's turn: its internal step if one is enabled. If none is, nothing happens (log 3). -/
def internalTurn (s : State) : Host.Outcome State Fault Refusal :=
  if internalEnabled s then internalStep s else .next s

/-- n turns of the compressor in a row. -/
def internalTurns : Nat → State → Host.Outcome State Fault Refusal
  | 0, s => .next s
  | n + 1, s =>
    match internalTurn s with
    | .next t => internalTurns n t
    | .fault f => .fault f
    | .refused r => .refused r

end Sys2Proof.Machine
end

