-- ==== Sys2Proof/Machine/Commands.lean ====
section
/-! DEFINITION. The meanings of the commands INIT, BLOCK and FINAL (spec 42 R162 to R165), each with the checks of R162 that apply to it. -/

namespace Sys2Proof.Machine

/-- INIT (42 R163): accepted in every phase. -/
def execInit (s : State) : Host.Outcome State Fault Refusal := .next (startMessage s)

/-- The length check of BLOCK: `LEN + 64 ≥ 2^61` (42 R164, 60 R203), on numbers, without wrap (log 15). -/
def tooLarge (s : State) : Bool := decide (s.len.toNat + 64 ≥ Config.lengthLimit)

/-- BLOCK reached in phase READY (42 R164). -/
def blockInReady (s : State) : State :=
  if tooLarge s then raiseError .tooLarge s else enqueue [chunk s.data] (s.len + 64) false s

/-- BLOCK (42 R162, R164). -/
def execBlock (s : State) : Host.Outcome State Fault Refusal := .next (inReady s blockInReady)

/-- The message length a FINAL gives: `LEN + nb` (42 R165). -/
def finalLen (nb : BitVec 6) (s : State) : BitVec 64 := s.len + nb.zeroExtend 64

/-- FINAL reached in phase READY (42 R165). -/
def finalInReady (nb : BitVec 6) (s : State) : State :=
  enqueue (padTail (tail s.data nb) (finalLen nb s)) (finalLen nb s) true s

/-- FINAL nb (42 R162, R165). -/
def execFinal (nb : BitVec 6) (s : State) : Host.Outcome State Fault Refusal := .next (inReady s (finalInReady nb))

/-- A CMD write of an illegal word (42 R162, 60 R204): E_BAD_CMD, but ignored in ERROR (60 R207). -/
def illegalCommand (s : State) : State := if s.phase = .error then s else raiseError .badCmd s

end Sys2Proof.Machine
end

