-- ==== Sys2Proof/Machine/HostPort.lean ====
section
/-! DEFINITION. The host port: the CMD write (spec 42 R162), BusWrite and BusRead (42 R160, R161), the lines of a host program (30 R77), and
the turns of the agents (20 R59). -/

namespace Sys2Proof.Machine

/-- `command(v)`, a CMD write (42 R162): decoded, and executed or rejected, as one indivisible action (20 R58). -/
def command (v : Word) (s : State) : Host.Outcome State Fault Refusal :=
  match decode v with
  | .ok i => exec i s
  | .error _ => .next (illegalCommand s)

/-- `BusWrite` to a register (42 R160). Writes to RO and reserved offsets have no effect (20 R54). -/
def busWrite (r : Reg) (v : Word) (s : State) : Host.Outcome State Fault Refusal :=
  match r with
  | .cmd => command v s
  | .data i => .next (writeData i v s)
  | .status => .next s
  | .msglenLo => .next s
  | .msglenHi => .next s
  | .reserved _ => .next s
  | .digest _ => .next s

/-- The refusal of an access outside the interface (20 R52, 93 §1). -/
def accessRefusal : BadAccess → Refusal
  | .width => .accessWidth
  | .misaligned => .accessMisaligned
  | .outsideWindow => .accessOutsideWindow

/-- A write access. -/
def accessWrite (a : Access) (v : Word) (s : State) : Host.Outcome State Fault Refusal :=
  match decodeAccess a with
  | .ok r => busWrite r v s
  | .error e => .refused (accessRefusal e)

/-- A read access, the value handed to `use`. -/
def accessRead (a : Access) (s : State) (use : Word → State → State) : Host.Outcome State Fault Refusal :=
  match decodeAccess a with
  | .ok r => .next (use (busRead r s) s)
  | .error e => .refused (accessRefusal e)

/-- A host-side jump (30 R77), taken: to a label the program does not hold it is refused (DESIGN CHOICE, log 7). -/
def jump (l : HostName) (s : State) : Host.Outcome State Fault Refusal :=
  match linesAfter l s.host.prog with
  | some ls => .next (setLines ls s)
  | none => .refused .unknownLabel

/-- The host-side branch `if x[k] = b goto l` (30 R77). Where 30 R77 is silent the model chooses (DESIGN CHOICE, log 7): a name not yet
given and a bit above 31 are refused, taken or not; the label is looked up only when the jump is taken, so a branch that is NOT taken
goes on to the next line even if the program does not hold its label, and only the taken jump to such a label is refused. -/
def branch (x : HostName) (k : Nat) (b : Bool) (l : HostName) (s : State) : Host.Outcome State Fault Refusal :=
  match s.host.named.lookup x with
  | none => .refused .unnamedValue
  | some v =>
    if 32 ≤ k then .refused .bitOutsideWord
    else if v.getLsbD k = b then jump l s
    else .next s

/-- One line of the host program (30 R77), the host already past it. -/
def hostLine (line : HostLine) (s : State) : Host.Outcome State Fault Refusal :=
  match line with
  | .wr a v => accessWrite a v s
  | .rd a => accessRead a s observe
  | .rdTo a x => accessRead a s fun v s => nameValue x v (observe v s)
  | .label _ => .next s
  | .ifBit x k b l => branch x k b l s

/-- The host's turn: its next line; after the last line nothing happens (42 R168, log 21). -/
def hostTurn (s : State) : Host.Outcome State Fault Refusal :=
  match s.host.lines with
  | [] => .next s
  | line :: rest => hostLine line (setLines rest s)

/-- The turn of an agent (20 R59, 70 R230). -/
def takeTurn (t : Turn) (s : State) : Host.Outcome State Fault Refusal :=
  match t with
  | .host => hostTurn s
  | .internal => internalTurn s
  | .reset => .next (powerReset s)

/-- Who moves when the scheduler's list is used up: the compressor while it is BUSY, else the host. Fair, as 20 R59 asks: while
BUSY an internal step is taken (DESIGN CHOICE, log 2). -/
def fairTurn (s : State) : Turn := if s.phase = .busy then .internal else .host

/-- Who moves next: the head of the scheduler's list (20 R59, log 1). -/
def nextTurn (s : State) : Turn :=
  match s.sched with
  | t :: _ => t
  | [] => fairTurn s

/-- The turn is taken from the scheduler's list. -/
def dropTurn (s : State) : State := { s with sched := s.sched.tail }

/-- The next step runs the given host line: it becomes the host's next line, and the scheduler's next turn is the host's. -/
def placeLine (line : HostLine) (s : State) : State :=
  { s with host := { s.host with lines := line :: s.host.lines }, sched := .host :: s.sched }

/-- The host line that writes a command word to CMD (30 R77, R78). -/
def cmdLine (v : Word) : HostLine := .wr (Access.reg .cmd) v

/-- The 32-bit command word of a table word of nbits bits (log 22). -/
def tableWord (nbits w : Nat) : Word := BitVec.ofNat 32 (w % 2 ^ nbits)

end Sys2Proof.Machine
end

