-- ==== Sys2Proof/Machine/Step.lean ====
section
/-! DEFINITION. One step of the machine: the agent whose turn it is moves (spec 20 R58, R59). -/

namespace Sys2Proof.Machine

/-- One step: the next turn is taken from the scheduler's list and its agent moves. -/
def step (s : State) : Host.Outcome State Fault Refusal := takeTurn (nextTurn s) (dropTurn s)

/-- The state in which the very next step is the CMD write of the given table word (log 8). -/
def State.withFetchWord (s : State) (nbits w : Nat) : State := placeLine (cmdLine (tableWord nbits w)) s

end Sys2Proof.Machine
end

