-- ==== Sys2Proof/Machine/HostProgram.lean ====
section
/-! DEFINITION. The pseudo-instructions of host programs (spec 30 R78), loading a program, and the per-message protocol (spec 42 R167, 70 R233). -/

namespace Sys2Proof.Machine

/-- `init` (30 R78). -/
def psInit : List HostLine := [cmdLine 0x00000001]

/-- `block` (30 R78). -/
def psBlock : List HostLine := [cmdLine 0x00000002]

/-- `final n`, 0 ≤ n ≤ 63 (30 R78). -/
def psFinal (n : BitVec 6) : List HostLine := [cmdLine (0x00000003 ||| (n.zeroExtend 32 <<< 4))]

/-- `wait` (30 R78), with its fresh label `l`; the STATUS value it reads is named `x`. -/
def psWait (l x : HostName) : List HostLine :=
  [.label l, .rdTo (Access.reg .status) x, .ifBit x 0 true l]

/-- `ldata S`, |S| ≤ 64 bytes (30 R78): sixteen lines `wr DATAi, BE32(S ‖ 0x00^(64−|S|), 4i)`, in order. R78 gives no expansion for a longer S;
that it writes the first 64 bytes then is the model's choice (DESIGN CHOICE, log 24). -/
def psLdata (S : List Byte) : List HostLine :=
  (List.finRange 16).map fun i =>
    .wr (Access.reg (.data i)) (be32 (S ++ List.replicate (64 - S.length) 0) (4 * i.val))

/-- `expect R, imm32` (30 R78): it reads the register; the expected value is an annotation without effect. -/
def psExpect (r : Reg) (_expected : Word) (x : HostName) : List HostLine := [.rdTo (Access.reg r) x]

/-- A host program is loaded from outside: the host is at its first line, has named nothing and observed nothing (log 8). -/
def loadProgram (prog : List HostLine) (s : State) : State :=
  { s with host := { prog := prog, lines := prog, named := [], obs := [] } }

/-- One full chunk of the per-message protocol: `ldata C`, `block`, `wait` (42 R167). -/
def chunkLines (l : HostName) (C : Block) : List HostLine := psLdata C ++ psBlock ++ psWait l 0

/-- The full chunks of a message, each `wait` with a label of its own, from label `l` on. -/
def chunksLines : HostName → List Block → List HostLine
  | _, [] => []
  | l, C :: rest => chunkLines l C ++ chunksLines (l + 1) rest

/-- The host program of 42 R167 for a message M = C_1 ‖ … ‖ C_k ‖ T: `init`, then for each chunk `ldata C_i`, `block`, `wait`, then
`ldata T`, `final nb`, `wait`. -/
def messageProgram (M : List Byte) : List HostLine :=
  let k := M.length / Config.blockBytes
  let T := M.drop (Config.blockBytes * k)
  psInit ++ chunksLines 0 (blocksOf k M) ++ psLdata T ++ psFinal (BitVec.ofNat 6 T.length) ++ psWait k 0

end Sys2Proof.Machine
end

