-- ==== Sys2Proof/Safety.lean ====
section
/-! DEFINITION. What a safe state is: the invariants of spec 10 R32, with R25's bound on LEN before a FINAL and the facts that make them
inductive (every queued block is whole, 40 R109; ERRCODE is one of the codes that exist, 60 R201). -/

namespace Sys2Proof.Machine

/-- The six invariants of 10 R32, one field each. -/
structure State.R32 (s : State) : Prop where
  busy_iff   : s.phase = .busy ↔ (s.q ≠ [] ∨ s.cstate ≠ .idle)
  error_iff  : s.phase = .error ↔ s.errcode ≠ 0
  rest_idle  : (s.phase = .ready ∨ s.phase = .done ∨ s.phase = .error) → s.q = [] ∧ s.cstate = .idle
  done_fin   : s.phase = .done → s.fin = true
  queue_len  : s.q.length ≤ 2 ∧ s.q.length + (if s.cstate ≠ .idle then 1 else 0) ≤ 2
  len_bound  : s.len.toNat ≤ 2 ^ 61 - 1

/-- A message that no FINAL has closed: READY, or BUSY with FIN = 0 (10 R25, R29). -/
def messageOpen (s : State) : Bool := s.phase == .ready || (s.phase == .busy && !s.fin)

/-- The invariant of the machine. -/
structure State.Inv (s : State) : Prop extends s.R32 where
  /-- Before FINAL, LEN is a multiple of 64 and at most 2^61 − 64 (10 R25). -/
  open_len   : messageOpen s = true → s.len.toNat % 64 = 0 ∧ s.len.toNat ≤ 2 ^ 61 - 64
  /-- Q holds whole blocks only (40 R109). -/
  whole      : ∀ B ∈ s.q, B.length = 64
  /-- A BLOCK queues one block, so with FIN = 0 the compressor never works on one while another waits (42 R164). -/
  one_block  : s.fin = false → s.q.length + (if s.cstate ≠ .idle then 1 else 0) ≤ 1
  /-- Only the codes 0 to 4 are produced (60 R201). -/
  code_known : s.errcode.toNat ≤ 4

/-- A state from which a step does not fault. -/
def StepSafe (s : State) : Prop := ∀ f, step s ≠ .fault f

/-- The ten hardware fields are equal; the host and the scheduler may differ. -/
def SameHw (s t : State) : Prop :=
  t.h = s.h ∧ t.reg = s.reg ∧ t.w = s.w ∧ t.len = s.len ∧ t.phase = s.phase ∧ t.cstate = s.cstate ∧ t.q = s.q ∧
    t.fin = s.fin ∧ t.errcode = s.errcode ∧ t.data = s.data

/-- Equal in everything but H and a..h, the two that 42 R166 hides outside DONE. -/
def EqualButHash (s t : State) : Prop := t = { s with h := t.h, reg := t.reg }

end Sys2Proof.Machine
end

