-- ==== Sys2Proof/Certificates/Slice0/Obligations.lean ====
section
/-! DEFINITION. The statements for the provers, from the numbered rules of spec/. Every statement about what follows a step holds for every
value of the scheduler's list `sched`, the model's own field (log 1). -/

open Sys2Proof Sys2Proof.Machine

/-! ### Encoding -/

/-- 30 R71, R75, and the command words of 95 §2.6: a few words and what they stand for. -/
def Obligations.DecodesTheCommandWords : Prop :=
  decode 0x00000001 = .ok .init ∧ decode 0x00000002 = .ok .block ∧ decode 0x00000003 = .ok (.final 0) ∧
  decode 0x00000033 = .ok (.final 3) ∧ decode 0x00000383 = .ok (.final 56) ∧ decode 0x000003F3 = .ok (.final 63) ∧
  ∀ v ∈ ([0x0, 0x4, 0xF, 0x11, 0x12, 0x403, 0x80000001] : List Word), ∀ i, decode v ≠ .ok i

/-- 30 R70 to R75: decoding and encoding are inverse, both ways, on every instruction and every word. -/
def Obligations.DecodeAndEncodeAreInverse : Prop :=
  (∀ i : Instr, decode (encode i) = .ok i ∧ decodeTableWord 32 (encode i).toNat = some i) ∧
  ∀ (v : Word) (i : Instr), decode v = .ok i → encode i = v

/-- 30 R75: a word decodes iff it matches a row of the table, the row is that of the decoded instruction, and the rows are
disjoint. -/
def Obligations.DecoderAgreesWithTheTable : Prop :=
  (∀ v : Word, (∃ i, decode v = .ok i) ↔ ∃ r ∈ decodeTable, r.matches v = true) ∧
  (∀ (v : Word) (i : Instr), decode v = .ok i → ∃ r ∈ decodeTable, r.matches v = true ∧ r.mnemonic = i.mnemonic) ∧
  (∀ (v : Word) (nb : BitVec 6), decode v = .ok (.final nb) → nb = v.extractLsb' 4 6) ∧
  ∀ v : Word, ∀ r ∈ decodeTable, ∀ r' ∈ decodeTable, r.matches v = true → r'.matches v = true → r = r'

/-- 30 R74: `legal(v)` is what the decoder accepts, and exactly 1 + 1 + 64 = 66 words are legal. -/
def Obligations.ExactlySixtySixWordsAreLegal : Prop :=
  (∀ v : Word, legalWord v = true ↔ ∃ i, decode v = .ok i) ∧
  ∃ l : List Word, l.Nodup ∧ l.length = 66 ∧ ∀ v : Word, v ∈ l ↔ legalWord v = true

/-! ### The constant tables -/

/-- 10 R23: `K[i] = floor(frac(p_i^(1/3)) · 2^32)`, p_i the i-th prime from p_0 = 2. (n is the floor of p_i^(1/3) · 2^32.) -/
def Obligations.RoundConstantsAreCubeRootFractions : Prop :=
  ∀ i : Fin 64, ∃ n : Nat,
    n ^ 3 ≤ Nat.nth Nat.Prime i * 2 ^ 96 ∧ Nat.nth Nat.Prime i * 2 ^ 96 < (n + 1) ^ 3 ∧ (K i).toNat = n % 2 ^ 32

/-- 10 R24: `H0[i] = floor(frac(p_i^(1/2)) · 2^32)`. (n is the floor of p_i^(1/2) · 2^32.) -/
def Obligations.InitialHashIsSquareRootFractions : Prop :=
  ∀ i : Fin 8, ∃ n : Nat,
    n ^ 2 ≤ Nat.nth Nat.Prime i * 2 ^ 64 ∧ Nat.nth Nat.Prime i * 2 ^ 64 < (n + 1) ^ 2 ∧ H0[i].toNat = n % 2 ^ 32

/-! ### Bit primitives -/

/-- 41 R121, R122: rotr is the spec's formula and moves bit (i + n) mod 32 to bit i; shr is the floor of the quotient; for every
amount they are defined at, 1 to 31. -/
def Obligations.RotationsAreCircularAndShiftsLogical : Prop :=
  ∀ (x : Word) (n : Nat) (h : 1 ≤ n ∧ n ≤ 31),
    (rotr x n h).toNat = (x.toNat / 2 ^ n ||| x.toNat * 2 ^ (32 - n) % 2 ^ 32) ∧
    (∀ i < 32, (rotr x n h).getLsbD i = x.getLsbD ((i + n) % 32)) ∧
    (shr x n h).toNat = x.toNat / 2 ^ n

/-- 41 R123, R124: each bit of e selects f's bit or g's bit; Maj is the bitwise majority. -/
def Obligations.ChooseSelectsAndMajorityVotes : Prop :=
  (∀ (e f g : Word) (i : Nat), i < 32 →
    (ch e f g).getLsbD i = if e.getLsbD i = true then f.getLsbD i else g.getLsbD i) ∧
  ∀ (a b c : Word) (i : Nat), i < 32 →
    (maj a b c).getLsbD i = decide (2 ≤ (a.getLsbD i).toNat + (b.getLsbD i).toNat + (c.getLsbD i).toNat)

/-- 41 R125 to R128: the four Σ and σ functions bit by bit, with the spec's ten rotation amounts and two shift amounts. -/
def Obligations.SigmaFunctionsBitByBit : Prop :=
  ∀ (x : Word) (i : Nat), i < 32 →
    (bigSigma0 x).getLsbD i =
      (x.getLsbD ((i + 2) % 32) ^^ x.getLsbD ((i + 13) % 32) ^^ x.getLsbD ((i + 22) % 32)) ∧
    (bigSigma1 x).getLsbD i =
      (x.getLsbD ((i + 6) % 32) ^^ x.getLsbD ((i + 11) % 32) ^^ x.getLsbD ((i + 25) % 32)) ∧
    (smallSigma0 x).getLsbD i =
      (x.getLsbD ((i + 7) % 32) ^^ x.getLsbD ((i + 18) % 32) ^^ (decide (i + 3 < 32) && x.getLsbD (i + 3))) ∧
    (smallSigma1 x).getLsbD i =
      (x.getLsbD ((i + 17) % 32) ^^ x.getLsbD ((i + 19) % 32) ^^ (decide (i + 10 < 32) && x.getLsbD (i + 10)))

/-! ### Padder -/

/-- 40 R101: the zero count is the one solution in 0..63, by cases of L mod 64; in bits, (usedBits + zeroBits) ≡ 448 (mod 512). -/
def Obligations.ZeroCountIsTheUniqueSolution : Prop :=
  ∀ L : Nat, zeros L < 64 ∧ (L + 1 + zeros L) % 64 = 56 ∧ ((L * 8 + 8) + 8 * zeros L) % 512 = 448 ∧
    (∀ z < 64, (L + 1 + z) % 64 = 56 → z = zeros L) ∧
    (L % 64 ≤ 55 → zeros L = 55 - L % 64) ∧ (55 < L % 64 → zeros L = 119 - L % 64)

/-- 40 R100, R102, R104: the padded message is the message, one 0x80 byte, the zeros, and the bit length in 8 bytes; its length is the
smallest multiple of 64 that is at least L + 9. -/
def Obligations.PaddedMessageLayout : Prop :=
  ∀ M : List Byte, M.length ≤ 2 ^ 61 - 1 →
    let L := M.length
    (∃ field : List Byte, pad M = M ++ [0x80] ++ List.replicate (zeros L) 0 ++ field ∧ field.length = 8 ∧
      beNat field = 8 * L) ∧
    (pad M).length = L + 1 + zeros L + 8 ∧
    (pad M).length = 64 * ((L + 8) / 64 + 1) ∧
    (∀ m, L + 9 ≤ 64 * m → (pad M).length ≤ 64 * m) ∧
    (blocks (pad M)).length = (L + 8) / 64 + 1

/-- 40 R107: pad_tail gives one block for a tail of at most 55 bytes, else two; its blocks are whole, and in order they are
`T ‖ 0x80 ‖ 0x00^((55 − nb) mod 64) ‖ BE64bytes(8·L)`. For an L that is not ≡ nb (mod 64) or is beyond 2^61 − 1 this is the model's choice
(DESIGN CHOICE, log 25). -/
def Obligations.TailPaddingMakesWholeBlocks : Prop :=
  ∀ (T : List Byte) (L : BitVec 64), T.length ≤ 63 →
    (T.length ≤ 55 → (padTail T L).length = 1) ∧ (56 ≤ T.length → (padTail T L).length = 2) ∧
    (∀ B ∈ padTail T L, B.length = 64) ∧
    (padTail T L).flatten = T ++ [0x80] ++ List.replicate ((119 - T.length) % 64) 0 ++ be64bytes (8 * L)

/-- 40 R108, its equality of byte sequences: C_1 … C_k and pad_tail(T, L) are the blocks of pad(M). (That BLOCK queues C_i and FINAL queues
pad_tail(T, L) is BlockAbsorbsOneChunk and FinalPadsAndQueuesTheTail.) -/
def Obligations.HardwareBlocksAreThePaddedBlocks : Prop :=
  ∀ (M : List Byte) (k nb : Nat), M.length = 64 * k + nb → nb ≤ 63 → M.length ≤ 2 ^ 61 - 1 →
    blocks (pad M) = blocksOf k M ++ padTail (M.drop (64 * k)) (BitVec.ofNat 64 M.length)

/-! ### Byte order and compressor -/

/-- 20 R55: chunk byte 4i + j is DATA[i][31 − 8j : 24 − 8j], and for a full block BE32(C, 4i) = DATA[i]. -/
def Obligations.DataPackingIsBigEndian : Prop :=
  ∀ data : Vector Word 16, (chunk data).length = 64 ∧
    (∀ (i : Fin 16) (j : Fin 4), (chunk data)[4 * i.val + j.val]? = some (data[i].extractLsb' (24 - 8 * j.val) 8)) ∧
    (∀ i : Fin 16, be32 (chunk data) (4 * i.val) = data[i]) ∧ words (chunk data) = data

/-- 41 R130: W[0..15] are the block's words, and each later W[j] obeys the recurrence. -/
def Obligations.ScheduleObeysItsRecurrence : Prop :=
  ∀ w : Vector Word 16, (∀ (j : Nat) (h : j < 16), (sched w)[j] = w[j]) ∧
    ∀ (j : Nat) (h : j < 64), 16 ≤ j →
      (sched w)[j] =
        (sched w)[j - 16] + smallSigma0 (sched w)[j - 15] + (sched w)[j - 7] + smallSigma1 (sched w)[j - 2]

/-- 41 R136, with R129 to R131: LOAD takes the head of Q, fills W, initializes a..h from H, and changes nothing else. -/
def Obligations.LoadStepFillsTheSchedule : Prop :=
  ∀ (s : State) (B : Block) (rest : List Block),
    s.phase = .busy → s.cstate = .idle → s.q = B :: rest → B.length = 64 →
    ∃ W : Vector Word 64,
      internalTurn s =
        .next { s with q := rest, w := W, cstate := .rnd 0,
                       reg := ⟨s.h[0], s.h[1], s.h[2], s.h[3], s.h[4], s.h[5], s.h[6], s.h[7]⟩ } ∧
      (∀ (i : Nat) (h : i < 16), W[i] = be32 B (4 * i)) ∧
      ∀ (j : Nat) (h : j < 64), 16 ≤ j →
        W[j] = W[j - 16] + smallSigma0 W[j - 15] + W[j - 7] + smallSigma1 W[j - 2]

/-- 41 R137, R132: RND(t) computes T1 and T2 from the values before the round, and moves on; nothing else changes. -/
def Obligations.RoundStepMixesTheRegisters : Prop :=
  ∀ (s : State) (t : Fin 64), s.phase = .busy → s.cstate = .rnd t →
    let T1 := s.reg.h + bigSigma1 s.reg.e + ch s.reg.e s.reg.f s.reg.g + K t + s.w[t]
    let T2 := bigSigma0 s.reg.a + maj s.reg.a s.reg.b s.reg.c
    ∃ c : CState,
      internalTurn s =
        .next { s with reg := ⟨T1 + T2, s.reg.a, s.reg.b, s.reg.c, s.reg.d + T1, s.reg.e, s.reg.f, s.reg.g⟩, cstate := c } ∧
      (∀ h : t.val < 63, c = .rnd ⟨t.val + 1, by omega⟩) ∧ (t.val = 63 → c = .fold)

/-- 41 R138, R133: FOLD adds a..h into H; with Q empty the phase becomes DONE if FIN = 1, else READY. -/
def Obligations.FoldStepUpdatesTheHash : Prop :=
  ∀ s : State, s.phase = .busy → s.cstate = .fold →
    ∃ (X : Vector Word 8) (p : Phase),
      internalTurn s = .next { s with h := X, cstate := .idle, phase := p } ∧
      X[0] = s.h[0] + s.reg.a ∧ X[1] = s.h[1] + s.reg.b ∧ X[2] = s.h[2] + s.reg.c ∧ X[3] = s.h[3] + s.reg.d ∧
      X[4] = s.h[4] + s.reg.e ∧ X[5] = s.h[5] + s.reg.f ∧ X[6] = s.h[6] + s.reg.g ∧ X[7] = s.h[7] + s.reg.h ∧
      (s.q = [] → s.fin = true → p = .done) ∧ (s.q = [] → s.fin = false → p = .ready) ∧ (s.q ≠ [] → p = .busy)

/-- 41 R139: while BUSY one internal step is enabled and completes; it is LOAD, a round or FOLD by cstate, and LOAD finds a block. That
nothing happens in the other phases is the model's reading of a turn given to a compressor with no step enabled (log 3). -/
def Obligations.InternalStepCompletesExactlyWhenBusy : Prop :=
  ∀ s : State, s.Inv →
    (s.phase = .busy → (∃ t, internalTurn s = .next t ∧ t ≠ s) ∧ (s.cstate = .idle → s.q ≠ [])) ∧
    (s.phase ≠ .busy → internalTurn s = .next s)

/-- 41 R134, R141: compress runs all 64 rounds, t = 0 … 63, over the expanded schedule, from r_0 = X, and adds r_64 into X. R134 defines it
for a 64-byte block B; that the same holds for a B of another length, a missing byte reading as 0, is the model's choice (DESIGN CHOICE,
log 23). -/
def Obligations.CompressRunsAllSixtyFourRounds : Prop :=
  ∀ (X : Vector Word 8) (B : Block), ∃ (W : Vector Word 64) (r : Fin 65 → Regs),
    (∀ (i : Nat) (h : i < 16), W[i] = be32 B (4 * i)) ∧
    (∀ (j : Nat) (h : j < 64), 16 ≤ j →
      W[j] = W[j - 16] + smallSigma0 W[j - 15] + W[j - 7] + smallSigma1 W[j - 2]) ∧
    r 0 = ⟨X[0], X[1], X[2], X[3], X[4], X[5], X[6], X[7]⟩ ∧
    (∀ t : Fin 64,
      let p := r t.castSucc
      let T1 := p.h + bigSigma1 p.e + ch p.e p.f p.g + K t + W[t]
      let T2 := bigSigma0 p.a + maj p.a p.b p.c
      r t.succ = ⟨T1 + T2, p.a, p.b, p.c, p.d + T1, p.e, p.f, p.g⟩) ∧
    let z := r (Fin.last 64)
    compress X B =
      #v[X[0] + z.a, X[1] + z.b, X[2] + z.c, X[3] + z.d, X[4] + z.e, X[5] + z.f, X[6] + z.g, X[7] + z.h]

/-- 41 R142: from BUSY, IDLE, head(Q) = B and H = X, the 66 internal steps of the block give H = compress(X, B), and change nothing else
the host can observe but the phase. The order LOAD, RND(0) … RND(63), FOLD is 41 R140's, the phase after the FOLD 41 R138's. -/
def Obligations.BlockIsCompressedInSixtySixSteps : Prop :=
  ∀ (s : State) (B : Block) (rest : List Block),
    s.phase = .busy → s.cstate = .idle → s.q = B :: rest → B.length = 64 →
    (∃ t : State, internalTurns 66 s = .next t ∧
      t.h = compress s.h B ∧ t.q = rest ∧ t.cstate = .idle ∧ t.len = s.len ∧ t.fin = s.fin ∧ t.errcode = s.errcode ∧
      t.data = s.data ∧ t.host = s.host ∧ t.sched = s.sched ∧
      t.phase = if rest = [] then (if s.fin then .done else .ready) else .busy) ∧
    (∀ n : Fin 64, ∃ u, internalTurns (n.val + 1) s = .next u ∧ u.phase = .busy ∧ u.cstate = .rnd n) ∧
    ∃ u, internalTurns 65 s = .next u ∧ u.phase = .busy ∧ u.cstate = .fold

/-- 41 R140: a block passes through the 66 steps LOAD, RND(0) … RND(63), FOLD, and a BUSY phase that starts with k queued blocks ends after
exactly 66·k internal steps, in DONE if FIN = 1, else in READY. -/
def Obligations.BusyPhaseLastsSixtySixStepsPerBlock : Prop :=
  ∀ s : State, s.Inv → s.phase = .busy → s.cstate = .idle →
    (∀ n : Fin 64, ∃ u, internalTurns (n.val + 1) s = .next u ∧ u.cstate = .rnd n) ∧
    (∃ u, internalTurns 65 s = .next u ∧ u.cstate = .fold) ∧ (∃ u, internalTurns 66 s = .next u ∧ u.cstate = .idle) ∧
    (∀ n < 66 * s.q.length, ∃ u, internalTurns n s = .next u ∧ u.phase = .busy) ∧
    ∃ t, internalTurns (66 * s.q.length) s = .next t ∧ t.phase = if s.fin then .done else .ready

/-- 41 R135, R100: a digest has 32 bytes and is the serialization of the chaining value after all padded blocks; the chaining value
grows by one compress per block. For a message of 2^61 bytes or more, and for blocks that have not 64 bytes, the values are the model's
choice (DESIGN CHOICE, logs 25 and 23). -/
def Obligations.DigestHasThirtyTwoBytes : Prop :=
  (∀ M : List Byte, (digest M).length = 32 ∧
    ∃ X : Vector Word 8, compressAll H0 (blocks (pad M)) = X ∧
      ∀ (i : Fin 8) (j : Fin 4), (digest M)[4 * i.val + j.val]? = some (X[i].extractLsb' (24 - 8 * j.val) 8)) ∧
  ∀ (X : Vector Word 8) (bs : List Block) (B : Block), compressAll X (bs ++ [B]) = compress (compressAll X bs) B

/-! ### Host port -/

/-- 20 R52: an access is admitted iff it is 32 bits wide, word-aligned and in 0..0x7C; every other access is refused, read or
written. -/
def Obligations.AccessesOutsideTheInterfaceAreRefused : Prop :=
  ∀ (a : Access) (v : Word) (x : HostName) (s : State),
    ((∃ r, decodeAccess a = .ok r) ↔ (a.bytes = 4 ∧ a.off % 4 = 0 ∧ 0 ≤ a.off ∧ a.off ≤ 0x7C)) ∧
    (¬ (a.bytes = 4 ∧ a.off % 4 = 0 ∧ 0 ≤ a.off ∧ a.off ≤ 0x7C) →
      ∃ r ∈ [Refusal.accessWidth, .accessMisaligned, .accessOutsideWindow],
        hostLine (.wr a v) s = .refused r ∧ hostLine (.rd a) s = .refused r ∧ hostLine (.rdTo a x) s = .refused r)

/-- 20 R53: the address map, both ways, and at absolute addresses from BASE, which is a multiple of 128 (00 R4). -/
def Obligations.AddressMapOfTheWindow : Prop :=
  (Reg.cmd.offset = 0x00 ∧ Reg.status.offset = 0x04 ∧ Reg.msglenLo.offset = 0x08 ∧ Reg.msglenHi.offset = 0x0C ∧
    (∀ i : Fin 4, (Reg.reserved i).offset = 0x10 + 4 * i.val) ∧ (∀ i : Fin 8, (Reg.digest i).offset = 0x20 + 4 * i.val) ∧
    ∀ i : Fin 16, (Reg.data i).offset = 0x40 + 4 * i.val) ∧
  Config.base % 128 = 0 ∧
  ∀ (addr : Int) (bytes : Nat) (r : Reg),
    decodeAccess (Access.atAddress addr bytes) = .ok r ↔ bytes = 4 ∧ addr = Config.base + r.offset

/-- 42 R161, R36, R37: what each register reads. -/
def Obligations.RegisterReadValues : Prop :=
  ∀ s : State,
    busRead .cmd s = 0 ∧
    busRead .status s =
      (s.errcode.zeroExtend 32 <<< 4 ||| (if s.phase = .error then 4 else 0) ||| (if s.phase = .done then 2 else 0) |||
        (if s.phase = .busy then 1 else 0)) ∧
    busRead .msglenHi s ++ busRead .msglenLo s = s.len ∧
    (∀ i, busRead (.reserved i) s = 0) ∧
    (∀ i : Fin 8, busRead (.digest i) s = if s.phase = .done then s.h[i] else 0) ∧
    ∀ i : Fin 16, busRead (.data i) s = s.data[i]

/-- 10 R39: the fields of STATUS; at most one of BUSY, DONE and ERR is 1, and all three are 0 exactly in READY. -/
def Obligations.StatusBitsFollowThePhase : Prop :=
  ∀ s : State,
    let st := busRead .status s
    (st.getLsbD 0 = true ↔ s.phase = .busy) ∧ (st.getLsbD 1 = true ↔ s.phase = .done) ∧
    (st.getLsbD 2 = true ↔ s.phase = .error) ∧ st.getLsbD 3 = false ∧ st.extractLsb' 4 4 = s.errcode ∧
    st.extractLsb' 8 24 = 0 ∧
    ¬ (st.getLsbD 0 = true ∧ st.getLsbD 1 = true) ∧ ¬ (st.getLsbD 0 = true ∧ st.getLsbD 2 = true) ∧
    ¬ (st.getLsbD 1 = true ∧ st.getLsbD 2 = true) ∧ (st.extractLsb' 0 3 = 0 ↔ s.phase = .ready)

/-- 42 R160: a write to CMD is a command, a write to DATAi sets that word and nothing else, in any phase, every other write has no
effect. -/
def Obligations.RegisterWriteEffects : Prop :=
  ∀ (s : State) (v : Word),
    busWrite .cmd v s = command v s ∧
    (∀ i : Fin 16, ∃ d : Vector Word 16, busWrite (.data i) v s = .next { s with data := d } ∧ d[i] = v ∧
      ∀ j : Fin 16, j ≠ i → d[j] = s.data[j]) ∧
    busWrite .status v s = .next s ∧ busWrite .msglenLo v s = .next s ∧ busWrite .msglenHi v s = .next s ∧
    (∀ i, busWrite (.reserved i) v s = .next s) ∧ ∀ i, busWrite (.digest i) v s = .next s

/-- 20 R54: the host's turn on a read line records the value and changes nothing of the hardware; writing DATAi twice is writing it
once; writing to RO or reserved registers has no effect; two equal CMD writes are not one. That a value named again hides the earlier one is
the model's choice (log 20). -/
def Obligations.SideEffectsOfHostAccesses : Prop :=
  (∀ (s : State) (r : Reg) (rest : List HostLine), nextTurn s = .host → s.host.lines = .rd (Access.reg r) :: rest →
    step s =
      .next { s with host := { s.host with lines := rest, obs := s.host.obs ++ [busRead r s] }, sched := s.sched.tail }) ∧
  (∀ (s : State) (r : Reg) (x : HostName) (rest : List HostLine),
    nextTurn s = .host → s.host.lines = .rdTo (Access.reg r) x :: rest →
    ∃ t, step s = .next t ∧ SameHw s t ∧ t.host.obs = s.host.obs ++ [busRead r s] ∧ t.host.named.lookup x = some (busRead r s) ∧
      t.host.lines = rest) ∧
  (∀ (s t u : State) (i : Fin 16) (v : Word), busWrite (.data i) v s = .next t → busWrite (.data i) v t = .next u → u = t) ∧
  (∀ (s t : State) (r : Reg) (v : Word), r ≠ .cmd → (∀ i, r ≠ .data i) → busWrite r v s = .next t → t = s) ∧
  ∃ (s t u : State) (v : Word), busWrite .cmd v s = .next t ∧ busWrite .cmd v t = .next u ∧ u ≠ t

/-! ### Commands -/

/-- 42 R162 to R165: every command completes in every state: an error is a next state, never a stop. -/
def Obligations.EveryCommandAnswersANextState : Prop :=
  ∀ (i : Instr) (v : Word) (s : State), (∃ t, exec i s = .next t) ∧ ∃ t, command v s = .next t

/-- 42 R163: INIT completes in every phase; what it writes, that nothing else changes, and that STATUS becomes 0. -/
def Obligations.InitStartsAMessageInEveryPhase : Prop :=
  ∀ s : State, ∃ t : State, exec .init s = .next t ∧
    t = { s with h := H0, len := 0, q := [], cstate := .idle, fin := false, errcode := 0, phase := .ready } ∧
    busRead .status t = 0

/-- 42 R164: BLOCK in READY absorbs the 64-byte chunk, or raises E_TOO_LARGE when LEN + 64 ≥ 2^61; nothing else changes. -/
def Obligations.BlockAbsorbsOneChunk : Prop :=
  ∀ s : State, s.phase = .ready →
    (s.len.toNat + 64 < 2 ^ 61 →
      ∃ C : Block, exec .block s = .next { s with len := s.len + 64, q := [C], fin := false, phase := .busy } ∧
        (s.len + 64).toNat = s.len.toNat + 64 ∧ C.length = 64 ∧
        ∀ (i : Fin 16) (j : Fin 4), C[4 * i.val + j.val]? = some (s.data[i].extractLsb' (24 - 8 * j.val) 8)) ∧
    (2 ^ 61 ≤ s.len.toNat + 64 →
      exec .block s = .next { s with phase := .error, errcode := 1, q := [], cstate := .idle })

/-- 42 R165: FINAL nb in READY queues pad_tail of the first nb bytes of the chunk with L = LEN + nb, records L and FIN; nothing else
changes. Every nb in 0..63 completes, in every READY state. -/
def Obligations.FinalPadsAndQueuesTheTail : Prop :=
  ∀ (nb : BitVec 6) (s : State), s.phase = .ready →
    ∃ (L : BitVec 64) (blks : List Block),
      exec (.final nb) s = .next { s with len := L, q := blks, fin := true, phase := .busy } ∧
      blks = padTail ((serialize s.data).take nb.toNat) L ∧
      (nb.toNat ≤ 55 → blks.length = 1) ∧ (56 ≤ nb.toNat → blks.length = 2) ∧
      (s.len.toNat ≤ 2 ^ 61 - 64 → L.toNat = s.len.toNat + nb.toNat ∧ L.toNat ≤ 2 ^ 61 - 1)

/-- 42 R162, 60 R210: the checks of a CMD write, in order; the first that fires decides. -/
def Obligations.CommandChecksInOrder : Prop :=
  ∀ (v : Word) (s : State),
    (legalWord v = false → s.phase = .error → command v s = .next s) ∧
    (legalWord v = false → s.phase ≠ .error → command v s = .next (raiseError .badCmd s)) ∧
    (legalWord v = true → v.extractLsb' 0 4 = 1 → command v s = exec .init s) ∧
    (legalWord v = true → v.extractLsb' 0 4 ≠ 1 → s.phase = .error → command v s = .next s) ∧
    (legalWord v = true → v.extractLsb' 0 4 ≠ 1 → s.phase = .busy → command v s = .next (raiseError .busy s)) ∧
    (legalWord v = true → v.extractLsb' 0 4 ≠ 1 → s.phase = .done → command v s = .next (raiseError .seq s)) ∧
    (legalWord v = true → v.extractLsb' 0 4 = 2 → s.phase = .ready → command v s = exec .block s) ∧
    (legalWord v = true → v.extractLsb' 0 4 = 3 → s.phase = .ready → command v s = exec (.final (v.extractLsb' 4 6)) s)

/-! ### Errors -/

/-- 60 R202, R201: error entry writes the phase, the code, Q and cstate, and nothing else; afterwards STATUS shows ERR and the code, and
no digest word is readable. -/
def Obligations.ErrorEntryWritesFourFields : Prop :=
  (∀ (e : ErrorCode) (s : State),
    raiseError e s = { s with phase := .error, errcode := e.code, q := [], cstate := .idle } ∧
    busRead .status (raiseError e s) = (e.code.zeroExtend 32 <<< 4 ||| 4) ∧
    ∀ i, busRead (.digest i) (raiseError e s) = 0) ∧
  ErrorCode.tooLarge.code = 1 ∧ ErrorCode.badCmd.code = 2 ∧ ErrorCode.busy.code = 3 ∧ ErrorCode.seq.code = 4

/-- 60 R202 of every step: whatever step enters ERROR is a CMD write, it leaves H, LEN, FIN, DATA, W and a..h as they were, and the code
is the one of the check that fired (60 R203 to R206). -/
def Obligations.EnteringErrorIsPrecise : Prop :=
  ∀ s t : State, step s = .next t → s.phase ≠ .error → t.phase = .error →
    (∃ v rest, nextTurn s = .host ∧ s.host.lines = cmdLine v :: rest ∧
      t.errcode = (if legalWord v = false then 2 else if s.phase = .busy then 3 else if s.phase = .done then 4 else 1)) ∧
    t.q = [] ∧ t.cstate = .idle ∧ t.h = s.h ∧ t.len = s.len ∧ t.fin = s.fin ∧ t.data = s.data ∧ t.w = s.w ∧ t.reg = s.reg

/-- 60 R203: with R25's bound, BLOCK in READY raises E_TOO_LARGE exactly when LEN = 2^61 − 64, and FINAL never exceeds 2^61 − 1, so that
8·L fits in 64 bits (40 R102, R105). -/
def Obligations.LengthLimitIsEnforcedByBlock : Prop :=
  ∀ s : State, s.Inv → s.phase = .ready →
    (exec .block s = .next (raiseError .tooLarge s) ↔ s.len.toNat = 2 ^ 61 - 64) ∧
    ∀ (nb : BitVec 6) (t : State), exec (.final nb) s = .next t →
      t.phase ≠ .error ∧ t.len.toNat ≤ 2 ^ 61 - 1 ∧ (8 * t.len).toNat = 8 * (s.len.toNat + nb.toNat)

/-- 60 R207: in ERROR every CMD write but a legal INIT is ignored, DATA writes are accepted, reads show the code and no digest, and no
internal step is enabled. -/
def Obligations.ErrorPhaseIgnoresAllButInit : Prop :=
  ∀ s : State, s.phase = .error →
    (∀ v : Word, v ≠ encode .init → command v s = .next s) ∧
    (∃ t, command (encode .init) s = .next t ∧ t.phase = .ready ∧ t.errcode = 0) ∧
    (∀ (i : Fin 16) (v : Word), ∃ t, busWrite (.data i) v s = .next t ∧ t.data[i] = v ∧ t.phase = .error ∧
      t.errcode = s.errcode) ∧
    busRead .status s = (s.errcode.zeroExtend 32 <<< 4 ||| 4) ∧ (∀ i, busRead (.digest i) s = 0) ∧
    internalEnabled s = false

/-- 60 R208, R209: a step that starts in ERROR stays there with the first error's code, unless it is the reset event or the CMD write of a
legal INIT. -/
def Obligations.OnlyInitOrResetLeavesError : Prop :=
  ∀ s t : State, step s = .next t → s.phase = .error →
    (t.phase = .error ∧ t.errcode = s.errcode) ∨ nextTurn s = .reset ∨
      (nextTurn s = .host ∧ ∃ rest, s.host.lines = cmdLine (encode .init) :: rest)

/-! ### Results and visibility -/

/-- 42 R166: DIGESTi is H[i] in DONE and 0 in every other phase, and a DONE state stays DONE with its digest until a reset, or a CMD write
(INIT or an error). -/
def Obligations.DigestReadableOnlyInDone : Prop :=
  (∀ (s : State) (i : Fin 8), busRead (.digest i) s = if s.phase = .done then s.h[i] else 0) ∧
  ∀ s t : State, step s = .next t → s.phase = .done →
    (t.phase = .done ∧ t.h = s.h) ∨ nextTurn s = .reset ∨
      (nextTurn s = .host ∧ ∃ v rest, s.host.lines = cmdLine v :: rest ∧
        (if v = encode .init then t.phase = .ready else t.phase = .error))

/-- 42 R166 as noninterference: outside DONE, no step's outcome, and so no value the host reads, depends on the chaining value or on the
working registers. -/
def Obligations.ChainingValueIsNeverExposed : Prop :=
  ∀ s s' : State, EqualButHash s s' → s.phase ≠ .done →
    (∀ r : Reg, busRead r s' = busRead r s) ∧
    (∀ t, step s = .next t → ∃ t', step s' = .next t' ∧ EqualButHash t t') ∧
    (∀ f, step s = .fault f → step s' = .fault f) ∧ ∀ r, step s = .refused r → step s' = .refused r

/-- 40 R110: the bytes of DATA at positions nb..63 do not affect what FINAL nb does. -/
def Obligations.FinalIgnoresBytesPastTheTail : Prop :=
  ∀ (s : State) (d : Vector Word 16) (nb : BitVec 6),
    (∀ i < nb.toNat, (chunk d)[i]? = (chunk s.data)[i]?) →
    ∃ t, exec (.final nb) s = .next t ∧ exec (.final nb) { s with data := d } = .next { t with data := d }

/-- 70 R236, 20 R62: a DATA write changes nothing of the work in flight: the compressor's turns before and after it commute with it. -/
def Obligations.QueuedWorkIsACopyOfData : Prop :=
  ∀ (s : State) (i : Fin 16) (v : Word) (n : Nat),
    (∀ t, internalTurns n s = .next t → internalTurns n (writeData i v s) = .next (writeData i v t)) ∧
    (∀ f, internalTurns n s = .fault f → internalTurns n (writeData i v s) = .fault f)

/-- 20 R60: after an accepted BLOCK or FINAL, STATUS reads BUSY = 1 until the internal steps have finished the work, then 0 (READY) or 2
(DONE). The count of 66 steps a block is 41 R140's. For n beyond the 66 a block the statement rests on the model's choice of log 3: a
turn of the compressor with no step enabled changes nothing. -/
def Obligations.StatusShowsAcceptedWork : Prop :=
  ∀ (s t : State) (i : Instr), s.Inv → s.phase = .ready → i ≠ .init → exec i s = .next t → t.phase ≠ .error →
    ∀ n, ∃ u, internalTurns n t = .next u ∧
      busRead .status u = if n < 66 * t.q.length then 1 else if i = .block then 0 else 2

/-- 10 R26: DONE is entered by the FOLD of a FINAL's last block, and by nothing else. -/
def Obligations.DoneIsEnteredByTheLastFoldOnly : Prop :=
  ∀ s t : State, step s = .next t → s.phase ≠ .done → t.phase = .done →
    nextTurn s = .internal ∧ s.phase = .busy ∧ s.cstate = .fold ∧ s.q = [] ∧ s.fin = true

/-- 10 R20, R21, R22, R25, R29, R31: who writes H, a..h, W, LEN, FIN and DATA, of all that a step can be. -/
def Obligations.OnlyTheNamedWritersWrite : Prop :=
  ∀ s t : State, step s = .next t → nextTurn s ≠ .reset →
    (t.h ≠ s.h → (nextTurn s = .internal ∧ s.phase = .busy ∧ s.cstate = .fold) ∨
      (nextTurn s = .host ∧ ∃ rest, s.host.lines = cmdLine (encode .init) :: rest)) ∧
    (t.reg ≠ s.reg → nextTurn s = .internal ∧ s.phase = .busy ∧ s.cstate ≠ .fold) ∧
    (t.w ≠ s.w → nextTurn s = .internal ∧ s.phase = .busy ∧ s.cstate = .idle) ∧
    (t.len ≠ s.len ∨ t.fin ≠ s.fin →
      nextTurn s = .host ∧ ∃ v rest, s.host.lines = cmdLine v :: rest ∧ legalWord v = true) ∧
    (t.data ≠ s.data → nextTurn s = .host ∧
      ∃ (i : Fin 16) (v : Word) (rest : List HostLine), s.host.lines = .wr (Access.reg (.data i)) v :: rest ∧
        t.data[i] = v ∧ ∀ j : Fin 16, j ≠ i → t.data[j] = s.data[j])

/-! ### Reset and invariants -/

/-- 70 R230, R231: the state after reset, and what the host-visible registers read then. (W and a..h, which have no reset value in the
spec, are not named.) -/
def Obligations.ResetStateReadsZero : Prop :=
  let s := State.reset
  s.h = H0 ∧ s.len = 0 ∧ s.phase = .ready ∧ s.cstate = .idle ∧ s.q = [] ∧ s.fin = false ∧ s.errcode = 0 ∧
  (∀ i : Fin 16, s.data[i] = 0) ∧ ∀ r : Reg, busRead r s = 0

/-- 70 R230: the reset event can occur in any state, completes, and sets every element that has a reset value. (W and a..h have none.) -/
def Obligations.ResetEventFromEveryState : Prop :=
  ∀ s : State, nextTurn s = .reset → ∃ t, step s = .next t ∧
    t.h = H0 ∧ t.len = 0 ∧ t.phase = .ready ∧ t.cstate = .idle ∧ t.q = [] ∧ t.fin = false ∧ t.errcode = 0 ∧
    ∀ i : Fin 16, t.data[i] = 0

/-- 10 R32 holds at reset. -/
def Obligations.ResetStateMeetsTheInvariant : Prop := State.reset.Inv

/-- 10 R32, R25: every step, from every state, keeps the invariant. -/
def Obligations.EveryStepKeepsTheInvariant : Prop :=
  ∀ s t : State, s.Inv → step s = .next t → t.Inv

/-- 60 R200, 93 §1: under the invariant no step faults: the compressor never meets a block that is not whole, or an empty queue. -/
def Obligations.NoFaultUnderTheInvariant : Prop := ∀ s : State, s.Inv → StepSafe s

/-! ### Steps and runs -/

/-- 42 R160, R162: a step on the host's CMD write runs the decoded command, or the illegal-command rule. The model's own clause, no rule of
the spec: the word placed by `withFetchWord` is the one the next step runs; `withFetchWord` stands for the load of a program line
(DESIGN CHOICE, log 8), and how it and the table-word decoder cut a word to `nbits` bits is log 22 (DEDUCED). -/
def Obligations.StepRunsTheDecodedCommand : Prop :=
  (∀ (s : State) (v : Word) (rest : List HostLine), nextTurn s = .host → s.host.lines = cmdLine v :: rest →
    (∀ i, decode v = .ok i →
      step s = exec i { s with host := { s.host with lines := rest }, sched := s.sched.tail }) ∧
    ((∀ i, decode v ≠ .ok i) →
      step s = .next (illegalCommand { s with host := { s.host with lines := rest }, sched := s.sched.tail }))) ∧
  ∀ (s : State) (nbits w : Nat) (i : Instr), decodeTableWord nbits w = some i → step (s.withFetchWord nbits w) = exec i s

/-- 20 R59: the scheduler's list says who moves. When it is used up, the model's fair rule does (log 2); that the reset event leaves the
host's program and the list is the model's choice (log 18). -/
def Obligations.TheSchedulerDecidesWhoMoves : Prop :=
  ∀ (s : State) (ts : List Turn),
    (s.sched = .host :: ts → step s = hostTurn { s with sched := ts }) ∧
    (s.sched = .internal :: ts → step s = internalTurn { s with sched := ts }) ∧
    (s.sched = .reset :: ts → ∃ t, step s = .next t ∧ t.host = s.host ∧ t.sched = ts) ∧
    (s.sched = [] → step s = if s.phase = .busy then internalTurn s else hostTurn s)

/-- 30 R77: `if x[k] = b goto label` jumps iff bit k of the named value is b; the hardware is not touched. In a program that repeats the label
or the name, that the target is the first label and the value the latest named is the model's choice (log 20). -/
def Obligations.HostBranchFollowsTheNamedBit : Prop :=
  ∀ (s : State) (x : HostName) (k : Nat) (b : Bool) (l : HostName) (v : Word) (ls : List HostLine),
    s.host.named.lookup x = some v → k < 32 → linesAfter l s.host.prog = some ls →
    hostLine (.ifBit x k b l) s =
      .next (if v.getLsbD k = b then { s with host := { s.host with lines := ls } } else s)

/-- 30 R78, `ldata S`: sixteen host turns fill DATA with S and zeros, and change nothing else of the hardware. That a line takes one turn is
the model's choice (log 6). -/
def Obligations.LdataFillsTheStagingBuffer : Prop :=
  ∀ (S : List Byte) (s : State) (rest : List HostLine) (ts : List Turn), S.length ≤ 64 →
    s.host.lines = psLdata S ++ rest → s.sched = List.replicate 16 .host ++ ts →
    ∃ d : Vector Word 16,
      Sys2Proof.core.run 16 s =
        .next ({ s with data := d, host := { s.host with lines := rest }, sched := ts } : State) ∧
      chunk d = S ++ List.replicate (64 - S.length) 0

/-- 30 R78, 70 R238: `wait` ends, with phase ≠ BUSY, under every scheduler that does not reset, the fairness of 20 R59 being the model's
rule for the end of the list (log 2); the name x may stand before, the latest value counting (log 20). -/
def Obligations.WaitTerminates : Prop :=
  ∀ (s : State) (l x : HostName) (rest : List HostLine), s.Inv → .reset ∉ s.sched →
    s.host.lines = psWait l x ++ rest → linesAfter l s.host.prog = some ((psWait l x).tail ++ rest) →
    ∃ (n : Nat) (t : State), Sys2Proof.core.run n s = .next t ∧ t.host.lines = rest ∧ t.phase ≠ .busy

/-- 42 R167: for a message M of at most 2^61 − 1 bytes, the host program `init`, (`ldata C_i`, `block`, `wait`) for each full chunk,
`ldata T`, `final nb`, `wait` ends in DONE with the digest of M in DIGEST0..7 and MSGLEN = |M|, from every state that meets the
invariant and under every scheduler that does not reset. The interleaving is the list of log 1; that the run reaches its end rests on the
model's fair rule after the list (DESIGN CHOICE, log 2); the `wait`s name their STATUS value alike, the latest counting (log 20). -/
def Obligations.HostProtocolComputesTheDigest : Prop :=
  ∀ (M : List Byte) (s : State), M.length ≤ 2 ^ 61 - 1 → s.Inv → .reset ∉ s.sched →
    s.host.prog = messageProgram M → s.host.lines = messageProgram M →
    ∃ (n : Nat) (t : State), Sys2Proof.core.run n s = .next t ∧ t.host.lines = [] ∧ t.phase = .done ∧
      serialize (Vector.ofFn fun i : Fin 8 => busRead (.digest i) t) = digest M ∧
      (busRead .msglenHi t ++ busRead .msglenLo t).toNat = M.length
end

