-- ==== Sys2Proof/Laws/Bytes.lean ====
section
/-! SUPPORT. Byte sequences: lengths of the serializations, of the padding and of the blocks; big-endian conversions are inverse. -/

namespace Sys2Proof.Machine

@[simp] theorem be32bytes_length (v : Word) : (be32bytes v).length = 4 := rfl

@[simp] theorem be64bytes_length (v : BitVec 64) : (be64bytes v).length = 8 := rfl

@[simp] theorem lengthField_length (L : BitVec 64) : (lengthField L).length = 8 := rfl

theorem flatMap_be32bytes_length (ws : List Word) : (ws.flatMap be32bytes).length = 4 * ws.length := by
  induction ws with
  | nil => rfl
  | cons v ws ih => simp [ih]; omega

@[simp] theorem serialize_length {n : Nat} (ws : Vector Word n) : (serialize ws).length = 4 * n := by
  simp only [serialize, flatMap_be32bytes_length, Vector.length_toList]

@[simp] theorem chunk_length (data : Vector Word 16) : (chunk data).length = 64 := by simp [chunk]

@[simp] theorem tail_length (data : Vector Word 16) (nb : BitVec 6) : (tail data nb).length = nb.toNat := by
  have := nb.isLt
  simp [tail, nbytesOf]; omega

/-- A word written big-endian and read back (20 R55). -/
theorem be32_be32bytes (v : Word) (S : List Byte) : be32 (be32bytes v ++ S) 0 = v := by
  apply BitVec.eq_of_getLsbD_eq
  intro i hi
  simp only [be32, be32bytes, List.cons_append, List.nil_append, List.getD_cons_zero, List.getD_cons_succ,
    BitVec.getLsbD_append, BitVec.getLsbD_extractLsb']
  have : i < 8 ∨ (8 ≤ i ∧ i < 16) ∨ (16 ≤ i ∧ i < 24) ∨ 24 ≤ i := by omega
  rcases this with h | h | h | h
  · simp [h]
  · simp [show ¬ i < 8 by omega, show i - 8 < 8 by omega, show 8 + (i - 8) = i by omega]
  · simp [show ¬ i < 8 by omega, show ¬ i - 8 < 8 by omega, show i - 8 - 8 < 8 by omega,
      show 16 + (i - 8 - 8) = i by omega]
  · simp [show ¬ i < 8 by omega, show ¬ i - 8 < 8 by omega, show ¬ i - 8 - 8 < 8 by omega,
      show i - 8 - 8 - 8 < 8 by omega, show 24 + (i - 8 - 8 - 8) = i by omega]

/-- Reading behind a prefix. -/
theorem be32_append (A B : List Byte) (i : Nat) : be32 (A ++ B) (A.length + i) = be32 B i := by
  simp [be32, List.getElem?_append, Nat.add_assoc]

theorem zeros_eq (L : Nat) : zeros L = if L % 64 ≤ 55 then 55 - L % 64 else 119 - L % 64 := by
  unfold zeros; split <;> omega

theorem zeros_lt (L : Nat) : zeros L < 64 := by
  unfold zeros; omega

theorem zeros_add (k n : Nat) : zeros (64 * k + n) = zeros n := by
  unfold zeros; omega

theorem blocksOf_length (n : Nat) (bs : List Byte) : (blocksOf n bs).length = n := by
  induction n generalizing bs with
  | zero => rfl
  | succ n ih => simp [blocksOf, ih]

/-- The blocks of a sequence that is long enough are whole. -/
theorem length_of_mem_blocksOf {n : Nat} {bs : List Byte} (h : 64 * n ≤ bs.length) {B : Block} (hB : B ∈ blocksOf n bs) :
    B.length = 64 := by
  induction n generalizing bs with
  | zero => simp [blocksOf] at hB
  | succ n ih =>
    simp only [blocksOf, List.mem_cons] at hB
    rcases hB with rfl | hB
    · simp [Config.blockBytes]; omega
    · exact ih (by simp [Config.blockBytes]; omega) hB

/-- The blocks of a sequence cut at a block boundary. -/
theorem blocksOf_append (m n : Nat) (A B : List Byte) (hA : A.length = 64 * m) :
    blocksOf (m + n) (A ++ B) = blocksOf m A ++ blocksOf n B := by
  induction m generalizing A with
  | zero => simp_all [blocksOf]
  | succ m ih =>
    rw [Nat.succ_add]
    simp only [blocksOf, Config.blockBytes, List.cons_append]
    rw [List.take_append_of_le_length (by omega), List.drop_append_of_le_length (by omega), ih _ (by simp; omega)]

end Sys2Proof.Machine
end

