-- ==== Sys2Proof/Laws/Compressor.lean ====
section
/-! SUPPORT. The pure functions of the compressor, entry by entry: one lemma per function. -/

namespace Sys2Proof.Machine

/-- Reading a vector inside its bounds. -/
theorem vector_getD {α : Type} {n : Nat} (v : Vector α n) (i : Nat) (d : α) (h : i < n) : v.getD i d = v[i] := by
  simp [Vector.getD, h]

theorem words_getElem (B : Block) (i : Nat) (h : i < 16) : (words B)[i] = be32 B (4 * i) := by simp [words]

/-- A schedule step writes entry j and no other. -/
theorem schedStep_getElem (W : Vector Word 64) (j i : Nat) (h : i < 64) :
    (schedStep W j)[i] =
      if i = j then
        W.getD (j - 16) 0 + smallSigma0 (W.getD (j - 15) 0) + W.getD (j - 7) 0 + smallSigma1 (W.getD (j - 2) 0)
      else W[i] := by
  simp only [schedStep, Vector.getElem_setIfInBounds, eq_comm]

theorem foldHash_getElem (X : Vector Word 8) (r : Regs) (i : Nat) (h : i < 8) :
    (foldHash X r)[i] = X[i] + r.toVec[i] := by simp [foldHash]

/-- One more round (41 R134: `r_{t+1} = round(t, r_t, W)`). -/
theorem rounds_succ (n : Nat) (h : n < 64) (W : Vector Word 64) (r : Regs) :
    rounds (n + 1) W r = round ⟨n, h⟩ (rounds n W r) W := by
  unfold rounds
  rw [List.take_succ_eq_append_getElem (by simpa using h)]
  simp

@[simp] theorem rounds_zero (W : Vector Word 64) (r : Regs) : rounds 0 W r = r := rfl

theorem toVec_ofVec (X : Vector Word 8) : (Regs.ofVec X).toVec = X := by
  ext i hi
  interval_cases i <;> rfl

end Sys2Proof.Machine
end

