-- ==== Sys2Proof/Laws/State.lean ====
section
/-! SUPPORT. One lemma per field of State for each named update, true by rfl: what the update writes, and that it leaves the rest. -/

namespace Sys2Proof.Machine

/-! ### raiseError -/

@[simp] theorem raiseError_h (e : ErrorCode) (s : State) : (raiseError e s).h = s.h := rfl
@[simp] theorem raiseError_reg (e : ErrorCode) (s : State) : (raiseError e s).reg = s.reg := rfl
@[simp] theorem raiseError_w (e : ErrorCode) (s : State) : (raiseError e s).w = s.w := rfl
@[simp] theorem raiseError_len (e : ErrorCode) (s : State) : (raiseError e s).len = s.len := rfl
@[simp] theorem raiseError_phase (e : ErrorCode) (s : State) : (raiseError e s).phase = .error := rfl
@[simp] theorem raiseError_cstate (e : ErrorCode) (s : State) : (raiseError e s).cstate = .idle := rfl
@[simp] theorem raiseError_q (e : ErrorCode) (s : State) : (raiseError e s).q = [] := rfl
@[simp] theorem raiseError_fin (e : ErrorCode) (s : State) : (raiseError e s).fin = s.fin := rfl
@[simp] theorem raiseError_errcode (e : ErrorCode) (s : State) : (raiseError e s).errcode = e.code := rfl
@[simp] theorem raiseError_data (e : ErrorCode) (s : State) : (raiseError e s).data = s.data := rfl
@[simp] theorem raiseError_host (e : ErrorCode) (s : State) : (raiseError e s).host = s.host := rfl
@[simp] theorem raiseError_sched (e : ErrorCode) (s : State) : (raiseError e s).sched = s.sched := rfl

/-! ### startMessage -/

@[simp] theorem startMessage_h (s : State) : (startMessage s).h = H0 := rfl
@[simp] theorem startMessage_reg (s : State) : (startMessage s).reg = s.reg := rfl
@[simp] theorem startMessage_w (s : State) : (startMessage s).w = s.w := rfl
@[simp] theorem startMessage_len (s : State) : (startMessage s).len = 0 := rfl
@[simp] theorem startMessage_phase (s : State) : (startMessage s).phase = .ready := rfl
@[simp] theorem startMessage_cstate (s : State) : (startMessage s).cstate = .idle := rfl
@[simp] theorem startMessage_q (s : State) : (startMessage s).q = [] := rfl
@[simp] theorem startMessage_fin (s : State) : (startMessage s).fin = false := rfl
@[simp] theorem startMessage_errcode (s : State) : (startMessage s).errcode = 0 := rfl
@[simp] theorem startMessage_data (s : State) : (startMessage s).data = s.data := rfl
@[simp] theorem startMessage_host (s : State) : (startMessage s).host = s.host := rfl
@[simp] theorem startMessage_sched (s : State) : (startMessage s).sched = s.sched := rfl

/-! ### enqueue -/

@[simp] theorem enqueue_h (bs : List Block) (l : BitVec 64) (f : Bool) (s : State) : (enqueue bs l f s).h = s.h := rfl
@[simp] theorem enqueue_reg (bs : List Block) (l : BitVec 64) (f : Bool) (s : State) : (enqueue bs l f s).reg = s.reg := rfl
@[simp] theorem enqueue_w (bs : List Block) (l : BitVec 64) (f : Bool) (s : State) : (enqueue bs l f s).w = s.w := rfl
@[simp] theorem enqueue_len (bs : List Block) (l : BitVec 64) (f : Bool) (s : State) : (enqueue bs l f s).len = l := rfl
@[simp] theorem enqueue_phase (bs : List Block) (l : BitVec 64) (f : Bool) (s : State) : (enqueue bs l f s).phase = .busy := rfl
@[simp] theorem enqueue_cstate (bs : List Block) (l : BitVec 64) (f : Bool) (s : State) : (enqueue bs l f s).cstate = s.cstate := rfl
@[simp] theorem enqueue_q (bs : List Block) (l : BitVec 64) (f : Bool) (s : State) : (enqueue bs l f s).q = bs := rfl
@[simp] theorem enqueue_fin (bs : List Block) (l : BitVec 64) (f : Bool) (s : State) : (enqueue bs l f s).fin = f := rfl
@[simp] theorem enqueue_errcode (bs : List Block) (l : BitVec 64) (f : Bool) (s : State) : (enqueue bs l f s).errcode = s.errcode := rfl
@[simp] theorem enqueue_data (bs : List Block) (l : BitVec 64) (f : Bool) (s : State) : (enqueue bs l f s).data = s.data := rfl
@[simp] theorem enqueue_host (bs : List Block) (l : BitVec 64) (f : Bool) (s : State) : (enqueue bs l f s).host = s.host := rfl
@[simp] theorem enqueue_sched (bs : List Block) (l : BitVec 64) (f : Bool) (s : State) : (enqueue bs l f s).sched = s.sched := rfl

/-! ### writeData -/

@[simp] theorem writeData_h (i : Fin 16) (v : Word) (s : State) : (writeData i v s).h = s.h := rfl
@[simp] theorem writeData_reg (i : Fin 16) (v : Word) (s : State) : (writeData i v s).reg = s.reg := rfl
@[simp] theorem writeData_w (i : Fin 16) (v : Word) (s : State) : (writeData i v s).w = s.w := rfl
@[simp] theorem writeData_len (i : Fin 16) (v : Word) (s : State) : (writeData i v s).len = s.len := rfl
@[simp] theorem writeData_phase (i : Fin 16) (v : Word) (s : State) : (writeData i v s).phase = s.phase := rfl
@[simp] theorem writeData_cstate (i : Fin 16) (v : Word) (s : State) : (writeData i v s).cstate = s.cstate := rfl
@[simp] theorem writeData_q (i : Fin 16) (v : Word) (s : State) : (writeData i v s).q = s.q := rfl
@[simp] theorem writeData_fin (i : Fin 16) (v : Word) (s : State) : (writeData i v s).fin = s.fin := rfl
@[simp] theorem writeData_errcode (i : Fin 16) (v : Word) (s : State) : (writeData i v s).errcode = s.errcode := rfl
@[simp] theorem writeData_data (i : Fin 16) (v : Word) (s : State) : (writeData i v s).data = s.data.set i v := rfl
@[simp] theorem writeData_host (i : Fin 16) (v : Word) (s : State) : (writeData i v s).host = s.host := rfl
@[simp] theorem writeData_sched (i : Fin 16) (v : Word) (s : State) : (writeData i v s).sched = s.sched := rfl

/-! ### setLines -/

@[simp] theorem setLines_h (ls : List HostLine) (s : State) : (setLines ls s).h = s.h := rfl
@[simp] theorem setLines_reg (ls : List HostLine) (s : State) : (setLines ls s).reg = s.reg := rfl
@[simp] theorem setLines_w (ls : List HostLine) (s : State) : (setLines ls s).w = s.w := rfl
@[simp] theorem setLines_len (ls : List HostLine) (s : State) : (setLines ls s).len = s.len := rfl
@[simp] theorem setLines_phase (ls : List HostLine) (s : State) : (setLines ls s).phase = s.phase := rfl
@[simp] theorem setLines_cstate (ls : List HostLine) (s : State) : (setLines ls s).cstate = s.cstate := rfl
@[simp] theorem setLines_q (ls : List HostLine) (s : State) : (setLines ls s).q = s.q := rfl
@[simp] theorem setLines_fin (ls : List HostLine) (s : State) : (setLines ls s).fin = s.fin := rfl
@[simp] theorem setLines_errcode (ls : List HostLine) (s : State) : (setLines ls s).errcode = s.errcode := rfl
@[simp] theorem setLines_data (ls : List HostLine) (s : State) : (setLines ls s).data = s.data := rfl
@[simp] theorem setLines_host (ls : List HostLine) (s : State) : (setLines ls s).host = { s.host with lines := ls } := rfl
@[simp] theorem setLines_sched (ls : List HostLine) (s : State) : (setLines ls s).sched = s.sched := rfl

/-! ### observe -/

@[simp] theorem observe_h (v : Word) (s : State) : (observe v s).h = s.h := rfl
@[simp] theorem observe_reg (v : Word) (s : State) : (observe v s).reg = s.reg := rfl
@[simp] theorem observe_w (v : Word) (s : State) : (observe v s).w = s.w := rfl
@[simp] theorem observe_len (v : Word) (s : State) : (observe v s).len = s.len := rfl
@[simp] theorem observe_phase (v : Word) (s : State) : (observe v s).phase = s.phase := rfl
@[simp] theorem observe_cstate (v : Word) (s : State) : (observe v s).cstate = s.cstate := rfl
@[simp] theorem observe_q (v : Word) (s : State) : (observe v s).q = s.q := rfl
@[simp] theorem observe_fin (v : Word) (s : State) : (observe v s).fin = s.fin := rfl
@[simp] theorem observe_errcode (v : Word) (s : State) : (observe v s).errcode = s.errcode := rfl
@[simp] theorem observe_data (v : Word) (s : State) : (observe v s).data = s.data := rfl
@[simp] theorem observe_host (v : Word) (s : State) : (observe v s).host = { s.host with obs := s.host.obs ++ [v] } := rfl
@[simp] theorem observe_sched (v : Word) (s : State) : (observe v s).sched = s.sched := rfl

/-! ### nameValue -/

@[simp] theorem nameValue_h (x : HostName) (v : Word) (s : State) : (nameValue x v s).h = s.h := rfl
@[simp] theorem nameValue_reg (x : HostName) (v : Word) (s : State) : (nameValue x v s).reg = s.reg := rfl
@[simp] theorem nameValue_w (x : HostName) (v : Word) (s : State) : (nameValue x v s).w = s.w := rfl
@[simp] theorem nameValue_len (x : HostName) (v : Word) (s : State) : (nameValue x v s).len = s.len := rfl
@[simp] theorem nameValue_phase (x : HostName) (v : Word) (s : State) : (nameValue x v s).phase = s.phase := rfl
@[simp] theorem nameValue_cstate (x : HostName) (v : Word) (s : State) : (nameValue x v s).cstate = s.cstate := rfl
@[simp] theorem nameValue_q (x : HostName) (v : Word) (s : State) : (nameValue x v s).q = s.q := rfl
@[simp] theorem nameValue_fin (x : HostName) (v : Word) (s : State) : (nameValue x v s).fin = s.fin := rfl
@[simp] theorem nameValue_errcode (x : HostName) (v : Word) (s : State) : (nameValue x v s).errcode = s.errcode := rfl
@[simp] theorem nameValue_data (x : HostName) (v : Word) (s : State) : (nameValue x v s).data = s.data := rfl
@[simp] theorem nameValue_host (x : HostName) (v : Word) (s : State) : (nameValue x v s).host = { s.host with named := (x, v) :: s.host.named } := rfl
@[simp] theorem nameValue_sched (x : HostName) (v : Word) (s : State) : (nameValue x v s).sched = s.sched := rfl

/-! ### powerReset -/

@[simp] theorem powerReset_h (s : State) : (powerReset s).h = H0 := rfl
@[simp] theorem powerReset_reg (s : State) : (powerReset s).reg = Regs.zero := rfl
@[simp] theorem powerReset_w (s : State) : (powerReset s).w = Vector.replicate 64 0 := rfl
@[simp] theorem powerReset_len (s : State) : (powerReset s).len = 0 := rfl
@[simp] theorem powerReset_phase (s : State) : (powerReset s).phase = .ready := rfl
@[simp] theorem powerReset_cstate (s : State) : (powerReset s).cstate = .idle := rfl
@[simp] theorem powerReset_q (s : State) : (powerReset s).q = [] := rfl
@[simp] theorem powerReset_fin (s : State) : (powerReset s).fin = false := rfl
@[simp] theorem powerReset_errcode (s : State) : (powerReset s).errcode = 0 := rfl
@[simp] theorem powerReset_data (s : State) : (powerReset s).data = Vector.replicate 16 0 := rfl
@[simp] theorem powerReset_host (s : State) : (powerReset s).host = s.host := rfl
@[simp] theorem powerReset_sched (s : State) : (powerReset s).sched = s.sched := rfl

/-! ### dropTurn -/

@[simp] theorem dropTurn_h (s : State) : (dropTurn s).h = s.h := rfl
@[simp] theorem dropTurn_reg (s : State) : (dropTurn s).reg = s.reg := rfl
@[simp] theorem dropTurn_w (s : State) : (dropTurn s).w = s.w := rfl
@[simp] theorem dropTurn_len (s : State) : (dropTurn s).len = s.len := rfl
@[simp] theorem dropTurn_phase (s : State) : (dropTurn s).phase = s.phase := rfl
@[simp] theorem dropTurn_cstate (s : State) : (dropTurn s).cstate = s.cstate := rfl
@[simp] theorem dropTurn_q (s : State) : (dropTurn s).q = s.q := rfl
@[simp] theorem dropTurn_fin (s : State) : (dropTurn s).fin = s.fin := rfl
@[simp] theorem dropTurn_errcode (s : State) : (dropTurn s).errcode = s.errcode := rfl
@[simp] theorem dropTurn_data (s : State) : (dropTurn s).data = s.data := rfl
@[simp] theorem dropTurn_host (s : State) : (dropTurn s).host = s.host := rfl
@[simp] theorem dropTurn_sched (s : State) : (dropTurn s).sched = s.sched.tail := rfl

/-! ### placeLine -/

@[simp] theorem placeLine_h (line : HostLine) (s : State) : (placeLine line s).h = s.h := rfl
@[simp] theorem placeLine_reg (line : HostLine) (s : State) : (placeLine line s).reg = s.reg := rfl
@[simp] theorem placeLine_w (line : HostLine) (s : State) : (placeLine line s).w = s.w := rfl
@[simp] theorem placeLine_len (line : HostLine) (s : State) : (placeLine line s).len = s.len := rfl
@[simp] theorem placeLine_phase (line : HostLine) (s : State) : (placeLine line s).phase = s.phase := rfl
@[simp] theorem placeLine_cstate (line : HostLine) (s : State) : (placeLine line s).cstate = s.cstate := rfl
@[simp] theorem placeLine_q (line : HostLine) (s : State) : (placeLine line s).q = s.q := rfl
@[simp] theorem placeLine_fin (line : HostLine) (s : State) : (placeLine line s).fin = s.fin := rfl
@[simp] theorem placeLine_errcode (line : HostLine) (s : State) : (placeLine line s).errcode = s.errcode := rfl
@[simp] theorem placeLine_data (line : HostLine) (s : State) : (placeLine line s).data = s.data := rfl
@[simp] theorem placeLine_host (line : HostLine) (s : State) : (placeLine line s).host = { s.host with lines := line :: s.host.lines } := rfl
@[simp] theorem placeLine_sched (line : HostLine) (s : State) : (placeLine line s).sched = .host :: s.sched := rfl

/-! ### rnd -/

@[simp] theorem rnd_h (t : Fin 64) (s : State) : (rnd t s).h = s.h := rfl
@[simp] theorem rnd_reg (t : Fin 64) (s : State) : (rnd t s).reg = round t s.reg s.w := rfl
@[simp] theorem rnd_w (t : Fin 64) (s : State) : (rnd t s).w = s.w := rfl
@[simp] theorem rnd_len (t : Fin 64) (s : State) : (rnd t s).len = s.len := rfl
@[simp] theorem rnd_phase (t : Fin 64) (s : State) : (rnd t s).phase = s.phase := rfl
@[simp] theorem rnd_cstate (t : Fin 64) (s : State) : (rnd t s).cstate = afterRound t := rfl
@[simp] theorem rnd_q (t : Fin 64) (s : State) : (rnd t s).q = s.q := rfl
@[simp] theorem rnd_fin (t : Fin 64) (s : State) : (rnd t s).fin = s.fin := rfl
@[simp] theorem rnd_errcode (t : Fin 64) (s : State) : (rnd t s).errcode = s.errcode := rfl
@[simp] theorem rnd_data (t : Fin 64) (s : State) : (rnd t s).data = s.data := rfl
@[simp] theorem rnd_host (t : Fin 64) (s : State) : (rnd t s).host = s.host := rfl
@[simp] theorem rnd_sched (t : Fin 64) (s : State) : (rnd t s).sched = s.sched := rfl

/-! ### fold -/

@[simp] theorem fold_h (s : State) : (fold s).h = foldHash s.h s.reg := rfl
@[simp] theorem fold_reg (s : State) : (fold s).reg = s.reg := rfl
@[simp] theorem fold_w (s : State) : (fold s).w = s.w := rfl
@[simp] theorem fold_len (s : State) : (fold s).len = s.len := rfl
@[simp] theorem fold_phase (s : State) : (fold s).phase = phaseAfterFold s := rfl
@[simp] theorem fold_cstate (s : State) : (fold s).cstate = .idle := rfl
@[simp] theorem fold_q (s : State) : (fold s).q = s.q := rfl
@[simp] theorem fold_fin (s : State) : (fold s).fin = s.fin := rfl
@[simp] theorem fold_errcode (s : State) : (fold s).errcode = s.errcode := rfl
@[simp] theorem fold_data (s : State) : (fold s).data = s.data := rfl
@[simp] theorem fold_host (s : State) : (fold s).host = s.host := rfl
@[simp] theorem fold_sched (s : State) : (fold s).sched = s.sched := rfl

end Sys2Proof.Machine
end

