-- ==== Sys2Proof/Laws/Ops.lean ====
section
/-! SUPPORT. What each shared operation does, said once: the checks of a command, the turns of the agents, and one inversion lemma that
lists everything a step can do to the hardware. -/

namespace Sys2Proof.Machine

/-! ### Commands -/

theorem inReady_ready {s : State} (h : s.phase = .ready) (run : State → State) : inReady s run = run s := by
  simp [inReady, h]

theorem inReady_error {s : State} (h : s.phase = .error) (run : State → State) : inReady s run = s := by
  simp [inReady, h]

theorem inReady_busy {s : State} (h : s.phase = .busy) (run : State → State) : inReady s run = raiseError .busy s := by
  simp [inReady, h]

theorem inReady_done {s : State} (h : s.phase = .done) (run : State → State) : inReady s run = raiseError .seq s := by
  simp [inReady, h]

theorem tooLarge_eq_true {s : State} : tooLarge s = true ↔ 2 ^ 61 ≤ s.len.toNat + 64 := by
  simp [tooLarge, Config.lengthLimit]

theorem tooLarge_eq_false {s : State} : tooLarge s = false ↔ s.len.toNat + 64 < 2 ^ 61 := by
  rw [← Bool.not_eq_true, tooLarge_eq_true]; omega

theorem command_ok {v : Word} {i : Instr} (h : decode v = .ok i) (s : State) : command v s = exec i s := by
  simp [command, h]

theorem command_error {v : Word} {e : Illegal} (h : decode v = .error e) (s : State) :
    command v s = .next (illegalCommand s) := by
  simp [command, h]

/-! ### Turns -/

theorem nextTurn_cons {s : State} {t : Turn} {ts : List Turn} (h : s.sched = t :: ts) : nextTurn s = t := by
  simp [nextTurn, h]

theorem nextTurn_nil {s : State} (h : s.sched = []) : nextTurn s = fairTurn s := by
  simp [nextTurn, h]

theorem internalTurn_busy {s : State} (h : s.phase = .busy) : internalTurn s = internalStep s := by
  simp [internalTurn, internalEnabled, h]

theorem internalTurn_rest {s : State} (h : s.phase ≠ .busy) : internalTurn s = .next s := by
  simp [internalTurn, internalEnabled, h]

theorem load_cons {s : State} {B : Block} {rest : List Block} (hq : s.q = B :: rest) (hB : B.length = 64) :
    load s = .next { s with q := rest, w := sched (words B), reg := Regs.ofVec s.h, cstate := .rnd 0 } := by
  simp [load, hq, hB, Config.blockBytes]

theorem internalTurns_succ {s t : State} (h : internalTurn s = .next t) (n : Nat) :
    internalTurns (n + 1) s = internalTurns n t := by
  simp [internalTurns, h]

/-- Turns of the compressor, one run after another. -/
theorem internalTurns_add (m n : Nat) {s t : State} (h : internalTurns m s = .next t) :
    internalTurns (m + n) s = internalTurns n t := by
  induction m generalizing s with
  | zero => simp only [internalTurns, Host.Outcome.next.injEq] at h; simp [h]
  | succ m ih =>
    rw [Nat.succ_add]
    cases hs : internalTurn s with
    | next u => rw [internalTurns_succ hs] at h ⊢; exact ih h
    | fault f => simp [internalTurns, hs] at h
    | refused r => simp [internalTurns, hs] at h

/-! ### Everything a step can do to the hardware -/

theorem SameHw.refl (s : State) : SameHw s s := by simp [SameHw]

theorem SameHw.trans {s t u : State} (h : SameHw s t) (k : SameHw t u) : SameHw s u := by
  simp_all [SameHw]

/-- What one step does, seen from a state `u` that has the hardware of the state before it. -/
inductive Move (turn : Turn) (lines : List HostLine) (u t : State) : Prop where
  /-- The hardware stays as it is. -/
  | quiet (h : SameHw u t)
  /-- The host wrote a legal command. -/
  | command (v : Word) (i : Instr) (rest : List HostLine) (ht : turn = .host) (hl : lines = cmdLine v :: rest)
      (hd : decode v = .ok i) (he : exec i u = .next t)
  /-- The host wrote an illegal command word. -/
  | illegal (v : Word) (e : Illegal) (rest : List HostLine) (ht : turn = .host) (hl : lines = cmdLine v :: rest)
      (hd : decode v = .error e) (he : t = illegalCommand u)
  /-- The host wrote a DATA register. -/
  | data (i : Fin 16) (v : Word) (a : Access) (rest : List HostLine) (ht : turn = .host) (hl : lines = .wr a v :: rest)
      (ha : decodeAccess a = .ok (.data i)) (he : t = writeData i v u)
  /-- The compressor took an internal step. -/
  | internal (ht : turn = .internal) (hb : u.phase = .busy) (he : internalStep u = .next t)
  /-- The reset event. -/
  | reset (ht : turn = .reset) (he : t = powerReset u)

theorem atWord_eq_cmd {k : Fin 32} (h : Reg.atWord k = .cmd) : k = 0 := by
  revert k; decide

/-- Only the access of CMD itself reaches CMD (20 R53). -/
theorem decodeAccess_eq_cmd {a : Access} (h : decodeAccess a = .ok .cmd) : a = Access.reg .cmd := by
  unfold decodeAccess at h
  split at h
  · cases h
  · split at h
    · cases h
    · split at h
      · cases h
      · injection h with h
        have hk := atWord_eq_cmd h
        rename_i hb hm hr
        have : a.off.toNat / 4 % 32 = 0 := by simpa [Fin.ext_iff] using hk
        have hoff : a.off = 0 := by omega
        have hby : a.bytes = 4 := by simpa using hb
        cases a
        simp_all [Access.reg, Reg.offset]

theorem hostLine_cases {line : HostLine} {u t : State} (h : hostLine line u = .next t) (rest : List HostLine) :
    Move .host (line :: rest) u t := by
  cases line with
  | wr a v =>
    simp only [hostLine, accessWrite] at h
    split at h
    · rename_i r hr
      cases r with
      | cmd =>
        obtain rfl := decodeAccess_eq_cmd hr
        simp only [busWrite, Machine.command] at h
        split at h
        · rename_i i hi; exact .command v i rest rfl rfl hi h
        · rename_i e hi; exact .illegal v e rest rfl rfl hi (by simpa using h.symm)
      | data i => exact .data i v a rest rfl rfl hr (by simpa [busWrite] using h.symm)
      | _ => simp only [busWrite, Host.Outcome.next.injEq] at h; exact .quiet (h ▸ .refl u)
    · cases h
  | rd a =>
    simp only [hostLine, accessRead] at h
    split at h
    · cases h; exact .quiet (by simp [SameHw])
    · cases h
  | rdTo a x =>
    simp only [hostLine, accessRead] at h
    split at h
    · cases h; exact .quiet (by simp [SameHw])
    · cases h
  | label l => cases h; exact .quiet (.refl u)
  | ifBit x k b l =>
    simp only [hostLine, branch] at h
    split at h
    · cases h
    · split at h
      · cases h
      · split at h
        · unfold jump at h
          split at h
          · cases h; exact .quiet (by simp [SameHw])
          · cases h
        · cases h; exact .quiet (.refl u)

/-- Everything a step can do: it is one of the moves, from a state with the same hardware. -/
theorem step_cases {s t : State} (h : step s = .next t) :
    ∃ u, SameHw s u ∧ Move (nextTurn s) s.host.lines u t := by
  unfold step at h
  cases ht : nextTurn s with
  | host =>
    rw [ht] at h
    simp only [takeTurn, hostTurn, dropTurn_host] at h
    split at h
    · cases h; exact ⟨s, .refl s, .quiet (by simp [SameHw])⟩
    · rename_i line rest hl
      rw [hl]
      exact ⟨_, by simp [SameHw], hostLine_cases h rest⟩
  | internal =>
    rw [ht] at h
    simp only [takeTurn] at h
    by_cases hb : s.phase = .busy
    · rw [internalTurn_busy (by simpa using hb)] at h
      exact ⟨dropTurn s, by simp [SameHw], .internal rfl (by simpa using hb) h⟩
    · rw [internalTurn_rest (by simpa using hb)] at h
      cases h; exact ⟨s, .refl s, .quiet (by simp [SameHw])⟩
  | reset =>
    rw [ht] at h
    cases h
    exact ⟨dropTurn s, by simp [SameHw], .reset rfl rfl⟩

end Sys2Proof.Machine
end

