-- ==== Sys2Proof/Laws/PerInstr.lean ====
section
/-! SUPPORT. The family `Encoding` of statements per instruction: the fields an instruction is written with are well-formed, its word has
exactly those fields, and the word is legal (spec 30 R70 to R75). -/

namespace Sys2Proof.Laws.Encoding

/-- The word of an instruction carries its fields and is legal (30 R70, R74). -/
def Statement (i : Instr) : Prop := i.wf = true ∧ fieldsOf (encode i) = i.fields ∧ legalWord (encode i) = true

theorem init : Statement .init := by unfold Statement; decide

theorem block : Statement .block := by unfold Statement; decide

theorem final (nb : BitVec 6) : Statement (.final nb) := by unfold Statement; revert nb; decide

end Sys2Proof.Laws.Encoding
end

