-- ==== Sys2Proof/Tests/Slice0.lean ====
section
/-! SUPPORT. Tests of the model: the checks of WellFormed refuse ill-formed terms, command words written out from the spec's encodings
decode as they should, a few results the spec prints (95), and for every obligation with hypotheses a witness that meets them. -/

namespace Sys2Proof.Tests

open Sys2Proof Sys2Proof.Machine

/-! ### Helpers -/

/-- The next state, if there is one. -/
def nextOf (o : Host.Outcome State Fault Refusal) : Option State :=
  match o with
  | .next t => some t
  | _ => none

/-- The refusal, if there is one. -/
def refusalOf (o : Host.Outcome State Fault Refusal) : Option Refusal :=
  match o with
  | .refused r => some r
  | _ => none

/-- STATUS after a CMD write. -/
def statusAfter (v : Word) (s : State) : Option Word := (nextOf (command v s)).map (busRead .status)

/-- The instruction a word decodes to. -/
def decoded (v : Word) : Option Instr := (decode v).toOption

/-- The padded block of "abc" (95 PD-2). -/
def abcBlock : Block := [0x61, 0x62, 0x63, 0x80] ++ List.replicate 59 0 ++ [0x18]

/-- Reset, then "abc" in DATA. -/
def abcLoaded : State := { State.reset with data := State.reset.data.set 0 0x61626300 }

/-- BUSY after `final 3` on `abcLoaded`, no internal step taken. -/
def abcBusy : State := { abcLoaded with q := [abcBlock], len := 3, fin := true, phase := .busy }

/-- BUSY with two blocks queued. -/
def twoBusy : State := { abcBusy with q := [abcBlock, abcBlock], len := 56 }

/-- BUSY after a BLOCK. -/
def blockBusy : State := { abcBusy with fin := false, len := 64 }

/-- BUSY, inside a block, at the given internal step. -/
def inside (c : CState) (s : State) : State := { s with q := s.q.tail, cstate := c }

/-- `abcBusy` with another hash state and other working registers. -/
def otherHash : State := { abcBusy with h := Vector.replicate 8 5, reg := ⟨1, 2, 3, 4, 5, 6, 7, 8⟩ }

/-- DONE. -/
def doneState : State := { State.reset with phase := .done, fin := true, len := 3 }

/-- ERROR with E_BAD_CMD. -/
def errorState : State := { State.reset with phase := .error, errcode := 2 }

/-- READY with a given LEN. -/
def readyAt (n : Nat) : State := { State.reset with len := BitVec.ofNat 64 n }

/-- The host at the given lines, its turn next. -/
def atLines (ls : List HostLine) (s : State) : State :=
  { s with host := { s.host with lines := ls }, sched := [.host] }

/-- A step on a host line. -/
def stepOn (line : HostLine) (s : State) : Option State := nextOf (step (atLines [line] s))

/-! ### WellFormed: one ill-formed term for each check -/

theorem test_wf_rejects_reserved_bits : ({ op := 1, nbytes := 0, rsv := 1 } : CmdFields).wf = false := by decide
theorem test_wf_rejects_reserved_op : ({ op := 4, nbytes := 0, rsv := 0 } : CmdFields).wf = false := by decide
theorem test_wf_rejects_op_zero : ({ op := 0, nbytes := 0, rsv := 0 } : CmdFields).wf = false := by decide
theorem test_wf_rejects_nbytes_of_init : ({ op := 1, nbytes := 1, rsv := 0 } : CmdFields).wf = false := by decide
theorem test_wf_rejects_nbytes_of_block : ({ op := 2, nbytes := 1, rsv := 0 } : CmdFields).wf = false := by decide
theorem test_wf_accepts_final : (Instr.final 63).wf = true ∧ Instr.init.wf = true ∧ Instr.block.wf = true := by decide

/-! ### Decoding: words written out from 30 R75 -/

theorem test_decode_init : decoded 0b0000000000000000000000_000000_0001#32 = some .init := by decide
theorem test_decode_block : decoded 0b0000000000000000000000_000000_0010#32 = some .block := by decide
theorem test_decode_final : decoded 0b0000000000000000000000_110111_0011#32 = some (.final 55) := by decide
theorem test_decode_final_bits : decoded 0b0000000000000000000000_100000_0011#32 = some (.final 32) := by decide
/-- 95 H-7 to H-11: illegal words. -/
theorem test_decode_illegal :
    [0x0, 0x4, 0x11, 0x12, 0x403].all (fun v => decide (decoded v = none)) = true := by decide
/-- 30 R78: `final 3` is 0x33, `final 56` is 0x383. -/
theorem test_encode_final : encode (.final 3) = 0x33 ∧ encode (.final 56) = 0x383 := by decide
theorem test_table_words :
    decodeTableWord 32 1 = some .init ∧ decodeTableWord 32 2 = some .block ∧ decodeTableWord 32 3 = some (.final 0) := by decide

/-! ### Results the spec prints -/

/-- 95 P-1, P-6, P-7, P-10, P-13, P-15. -/
theorem test_primitives :
    (0xFFFFFFFF : Word) + 1 = 0 ∧ rotr 0x12345678 8 = 0x78123456 ∧ rotr 0x12345678 31 = 0x2468ACF0 ∧
    shr 0x12345678 10 = 0x00048D15 ∧ ch 0xF0F0F0F0 0xAAAAAAAA 0x55555555 = 0xA5A5A5A5 ∧
    maj 0xF0F0F0F0 0xCCCCCCCC 0xAAAAAAAA = 0xE8E8E8E8 := by decide

/-- 95 P-19, P-21, P-23, P-25. -/
theorem test_sigmas :
    bigSigma0 0x12345678 = 0x66146474 ∧ bigSigma1 0x12345678 = 0x3561ABDA ∧ smallSigma0 0x12345678 = 0xE7FCE6EE ∧
    smallSigma1 0x12345678 = 0xA1F78649 := by decide

/-- 40 §3: z and the number of blocks at L = 55, 56, 63, 64. -/
theorem test_zeros : [0, 3, 55, 56, 63, 64, 120].map zeros = [55, 52, 0, 63, 56, 55, 63] := by decide

/-- 95 PD-2: the tail "abc". -/
theorem test_pad_tail_abc : padTail [0x61, 0x62, 0x63] 3 = [abcBlock] := by decide

/-- 95 §2.3: entries of the schedule of "abc". -/
theorem test_schedule_abc :
    let W := sched (words abcBlock)
    W[15] = 0x18 ∧ W[17] = 0x000F0000 ∧ W[18] = 0x7DA86405 ∧ W[63] = 0x12B1EDEB := by decide +kernel

/-- 95 L1-2: the chaining value after the block of "abc". -/
theorem test_compress_abc :
    (compress H0 abcBlock).toList =
      [0xBA7816BF, 0x8F01CFEA, 0x414140DE, 0x5DAE2223, 0xB00361A3, 0x96177A9C, 0xB410FF61, 0xF20015AD] := by decide +kernel

/-- 95 §2.3: RND(0) on the LOAD state of "abc". -/
theorem test_round_zero_abc :
    round 0 (Regs.ofVec H0) (sched (words abcBlock)) =
      ⟨0x5D6AEBCD, 0x6A09E667, 0xBB67AE85, 0x3C6EF372, 0xFA2A4622, 0x510E527F, 0x9B05688C, 0x1F83D9AB⟩ := by decide +kernel

/-- 95 H-15: INIT in ERROR. -/
theorem test_init_leaves_error : statusAfter 0x1 errorState = some 0 := by decide
/-- 95 H-9, H-13, H-14: an illegal word that looks like INIT; a BLOCK and an illegal word in ERROR. -/
theorem test_illegal_and_ignored :
    statusAfter 0x11 State.reset = some 0x24 ∧ statusAfter 0x2 errorState = some 0x24 ∧
    statusAfter 0x0 errorState = some 0x24 := by decide
/-- 95 H-23, H-25: BLOCK at the length limit and one chunk below it. -/
theorem test_block_at_the_limit :
    statusAfter 0x2 (readyAt (2 ^ 61 - 64)) = some 0x14 ∧ statusAfter 0x2 (readyAt (2 ^ 61 - 128)) = some 0x1 := by decide
/-- 95 H-19, H-26: BLOCK in DONE, and in BUSY at the length limit. -/
theorem test_block_sequence_errors :
    statusAfter 0x2 doneState = some 0x44 ∧
    statusAfter 0x2 { abcBusy with len := BitVec.ofNat 64 (2 ^ 61 - 64) } = some 0x34 := by decide
/-- 42 R165, 95 PD-2: `final 3` on "abc" queues the padded block. -/
theorem test_final_abc : nextOf (exec (.final 3) abcLoaded) = some abcBusy := by decide
/-- 95 H-24: `final 63` at the length limit. -/
theorem test_final_at_the_limit :
    (nextOf (exec (.final 63) (readyAt (2 ^ 61 - 64)))).map (fun t => (t.len, t.q.length)) =
      some (0x1FFFFFFFFFFFFFFF, 2) := by decide
/-- 95 H-22: an illegal word in BUSY is E_BAD_CMD, not E_BUSY. -/
theorem test_illegal_before_busy : statusAfter 0x4 abcBusy = some 0x24 := by decide
/-- 95 H-6. -/
theorem test_data_write :
    (stepOn (.wr { off := 0x7C } 0xDEADBEEF) State.reset).map (busRead (.data 15)) = some 0xDEADBEEF := by decide
/-- 20 R52: sub-word, misaligned and out-of-window accesses. -/
theorem test_bad_accesses :
    refusalOf (step (atLines [.rd { off := 4, bytes := 2 }] .reset)) = some .accessWidth ∧
    refusalOf (step (atLines [.rd { off := 6 }] .reset)) = some .accessMisaligned ∧
    refusalOf (step (atLines [.rd { off := 0x80 }] .reset)) = some .accessOutsideWindow ∧
    refusalOf (step (atLines [.wr { off := -4 } 1] .reset)) = some .accessOutsideWindow := by decide
/-- The word that `withFetchWord` places is the first command after reset: `final 63` (95 H-12). -/
theorem test_fetch_word :
    (nextOf (step (State.reset.withFetchWord 32 0x3F3))).map (fun t => (busRead .status t, t.len, t.q.length)) =
      some (1, 63, 2) := by decide

/-! ### Witnesses: for every obligation with hypotheses, a state and operands that meet them -/

theorem inv_reset : State.reset.Inv := by
  constructor
  · constructor <;> decide
  all_goals decide

theorem inv_abcBusy : abcBusy.Inv := by
  constructor
  · constructor <;> decide
  all_goals decide

theorem inv_twoBusy : twoBusy.Inv := by
  constructor
  · constructor <;> decide
  all_goals decide

theorem inv_blockBusy : blockBusy.Inv := by
  constructor
  · constructor <;> decide
  all_goals decide

theorem inv_errorState : errorState.Inv := by
  constructor
  · constructor <;> decide
  all_goals decide

theorem inv_limit : (readyAt (2 ^ 61 - 64)).Inv := by
  constructor
  · constructor <;> decide
  all_goals decide

/-- DecodeAndEncodeAreInverse, DecoderAgreesWithTheTable: words that decode, words that match a row. -/
theorem witness_decode :
    decode 0x3F3 = .ok (.final 63) ∧ (decodeTable.map fun r => r.matches 0x3F3) = [false, false, true] ∧
    (decodeTable.map fun r => r.matches 0x1) = [true, false, false] ∧
    (decodeTable.map fun r => r.matches 0x2) = [false, true, false] := ⟨rfl, by decide⟩

/-- RotationsAreCircularAndShiftsLogical, at both ends of the range. -/
theorem witness_amounts : (1 ≤ 1 ∧ 1 ≤ 31) ∧ (1 ≤ 31 ∧ 31 ≤ 31) := by decide

/-- ZeroCountIsTheUniqueSolution: L mod 64 at 55 and 56, and a z that solves the congruence. -/
theorem witness_zero_count : 55 % 64 ≤ 55 ∧ 55 < 56 % 64 ∧ (56 + 1 + 63) % 64 = 56 := by decide

/-- PaddedMessageLayout, HardwareBlocksAreThePaddedBlocks, HostProtocolComputesTheDigest: messages of 0, 63 and 64 bytes. -/
theorem witness_messages :
    ([] : List Byte).length = 64 * 0 + 0 ∧ (List.replicate 63 (0x61 : Byte)).length = 64 * 0 + 63 ∧
    (List.replicate 64 (0x61 : Byte)).length = 64 * 1 + 0 ∧ (List.replicate 64 (0x61 : Byte)).length ≤ 2 ^ 61 - 1 := by decide

/-- TailPaddingMakesWholeBlocks: tails of 0, 55, 56 and 63 bytes. -/
theorem witness_tails :
    [0, 55, 56, 63].map (fun n => (padTail (List.replicate n 0x61) (BitVec.ofNat 64 n)).length) = [1, 1, 2, 2] := by decide

/-- ScheduleObeysItsRecurrence and LoadStepFillsTheSchedule: indices at the ends of the ranges. -/
theorem witness_indices : 0 < 16 ∧ 15 < 16 ∧ (16 ≤ 16 ∧ 16 < 64) ∧ (16 ≤ 63 ∧ 63 < 64) := by decide

/-- LoadStepFillsTheSchedule, BlockIsCompressedInSixtySixSteps: one block queued, and two. -/
theorem witness_load :
    (abcBusy.phase = .busy ∧ abcBusy.cstate = .idle ∧ abcBusy.q = abcBlock :: [] ∧ abcBlock.length = 64) ∧
    twoBusy.phase = .busy ∧ twoBusy.cstate = .idle ∧ twoBusy.q = abcBlock :: [abcBlock] := by decide

/-- RoundStepMixesTheRegisters: the first round and the last. -/
theorem witness_round :
    (inside (.rnd 0) abcBusy).phase = .busy ∧ (inside (.rnd 0) abcBusy).cstate = .rnd 0 ∧
    (inside (.rnd 63) abcBusy).phase = .busy ∧ (inside (.rnd 63) abcBusy).cstate = .rnd 63 := by decide

/-- FoldStepUpdatesTheHash: Q empty with FIN 1, Q empty with FIN 0, Q not empty. -/
theorem witness_fold :
    ((inside .fold abcBusy).phase = .busy ∧ (inside .fold abcBusy).q = [] ∧ (inside .fold abcBusy).fin = true) ∧
    ((inside .fold blockBusy).q = [] ∧ (inside .fold blockBusy).fin = false) ∧
    (inside .fold twoBusy).phase = .busy ∧ (inside .fold twoBusy).cstate = .fold ∧ (inside .fold twoBusy).q ≠ [] := by decide

/-- InternalStepCompletesExactlyWhenBusy, EveryStepKeepsTheInvariant, NoFaultUnderTheInvariant: states that meet the invariant, BUSY and not;
and a step between two of them. -/
theorem witness_invariant :
    abcBusy.Inv ∧ abcBusy.phase = .busy ∧ State.reset.Inv ∧ State.reset.phase ≠ .busy ∧
    (nextOf (step (atLines [cmdLine 0x33] abcLoaded))).isSome = true := ⟨inv_abcBusy, rfl, inv_reset, by decide⟩

/-- BusyPhaseLastsSixtySixStepsPerBlock: one block with FIN 1 and FIN 0, and two. -/
theorem witness_busy_phase :
    (abcBusy.Inv ∧ abcBusy.phase = .busy ∧ abcBusy.cstate = .idle ∧ abcBusy.q.length = 1) ∧
    (blockBusy.Inv ∧ blockBusy.phase = .busy ∧ blockBusy.cstate = .idle) ∧
    twoBusy.Inv ∧ twoBusy.phase = .busy ∧ twoBusy.cstate = .idle ∧ twoBusy.q.length = 2 :=
  ⟨⟨inv_abcBusy, rfl, rfl, rfl⟩, ⟨inv_blockBusy, rfl, rfl⟩, inv_twoBusy, rfl, rfl, rfl⟩

/-- AccessesOutsideTheInterfaceAreRefused: the last admitted offset, and accesses just outside. -/
theorem witness_accesses :
    [(0x7C, 4), (0, 4), (0x80, 4), (-4, 4), (2, 4), (0, 8)].map
      (fun (p : Int × Nat) => (decodeAccess { off := p.1, bytes := p.2 }).toOption.isSome) =
    [true, true, false, false, false, false] := by decide

/-- SideEffectsOfHostAccesses, StepRunsTheDecodedCommand: the host's turn at a read, at a named read and at a CMD write. -/
theorem witness_host_turn :
    (nextTurn (atLines [.rd (Access.reg .status)] abcBusy) = .host ∧
      (atLines [.rd (Access.reg .status)] abcBusy).host.lines = .rd (Access.reg .status) :: []) ∧
    (atLines [.rdTo (Access.reg .status) 7] abcBusy).host.lines = .rdTo (Access.reg .status) 7 :: [] ∧
    (atLines [cmdLine 0x33] abcLoaded).host.lines = cmdLine 0x33 :: [] ∧ decoded 0x33 = some (.final 3) ∧
    decoded 0x11 = none ∧ decodeTableWord 32 0x33 = some (.final 3) ∧
    nextOf (busWrite (.data 3) 5 abcBusy) = some (writeData 3 5 abcBusy) ∧ nextOf (busWrite .status 5 abcBusy) = some abcBusy := by
  decide

/-- BlockAbsorbsOneChunk and LengthLimitIsEnforcedByBlock: READY one chunk below the limit and at it. -/
theorem witness_block :
    ((readyAt (2 ^ 61 - 128)).phase = .ready ∧ (readyAt (2 ^ 61 - 128)).len.toNat + 64 < 2 ^ 61) ∧
    (readyAt (2 ^ 61 - 64)).phase = .ready ∧ 2 ^ 61 ≤ (readyAt (2 ^ 61 - 64)).len.toNat + 64 := by decide

theorem witness_length_limit :
    (readyAt (2 ^ 61 - 64)).Inv ∧ (readyAt (2 ^ 61 - 64)).phase = .ready ∧
    (nextOf (exec (.final 63) (readyAt (2 ^ 61 - 64)))).isSome = true := ⟨inv_limit, rfl, rfl⟩

/-- FinalPadsAndQueuesTheTail: nb at 55 and 56, LEN at its bound. -/
theorem witness_final :
    (readyAt (2 ^ 61 - 64)).phase = .ready ∧ (readyAt (2 ^ 61 - 64)).len.toNat ≤ 2 ^ 61 - 64 ∧
    (55 : BitVec 6).toNat ≤ 55 ∧ 56 ≤ (56 : BitVec 6).toNat := by decide

/-- CommandChecksInOrder: a word and a phase for each of the eight checks. -/
theorem witness_checks :
    (legalWord 0x11 = false ∧ errorState.phase = .error ∧ abcBusy.phase ≠ .error) ∧
    (legalWord 0x1 = true ∧ (0x1 : Word).extractLsb' 0 4 = 1) ∧
    (legalWord 0x2 = true ∧ (0x2 : Word).extractLsb' 0 4 = 2 ∧ (0x2 : Word).extractLsb' 0 4 ≠ 1) ∧
    (legalWord 0x3F3 = true ∧ (0x3F3 : Word).extractLsb' 0 4 = 3) ∧
    abcBusy.phase = .busy ∧ doneState.phase = .done ∧ State.reset.phase = .ready := by decide

/-- EnteringErrorIsPrecise: a step into ERROR for each of the four codes. -/
theorem witness_entering_error :
    [(stepOn (cmdLine 0x11) State.reset), (stepOn (cmdLine 0x33) abcBusy), (stepOn (cmdLine 0x2) doneState),
      (stepOn (cmdLine 0x2) (readyAt (2 ^ 61 - 64)))].map (Option.map fun t => (t.phase, t.errcode)) =
    [some (.error, 2), some (.error, 3), some (.error, 4), some (.error, 1)] := by decide

/-- ErrorPhaseIgnoresAllButInit, OnlyInitOrResetLeavesError: a step from ERROR that stays, one by INIT, one by reset. -/
theorem witness_error_phase :
    errorState.phase = .error ∧ (stepOn (cmdLine 0x2) errorState).map (·.phase) = some .error ∧
    (stepOn (cmdLine 0x1) errorState).map (·.phase) = some .ready ∧
    (nextOf (step { errorState with sched := [.reset] })).map (·.phase) = some .ready ∧
    nextTurn { errorState with sched := [.reset] } = .reset := by decide

/-- DigestReadableOnlyInDone: a read, INIT, an error and a reset from DONE. -/
theorem witness_done :
    doneState.phase = .done ∧ (stepOn (.rd (Access.reg (.digest 0))) doneState).map (·.phase) = some .done ∧
    (stepOn (cmdLine 0x1) doneState).map (·.phase) = some .ready ∧
    (stepOn (cmdLine 0x3) doneState).map (·.phase) = some .error ∧
    (nextOf (step { doneState with sched := [.reset] })).map (·.phase) = some .ready := by decide

/-- ChainingValueIsNeverExposed: two states that differ in H and a..h; a next state, a fault and a refusal. -/
theorem witness_equal_but_hash :
    (EqualButHash abcBusy otherHash ∧ otherHash ≠ abcBusy ∧ abcBusy.phase ≠ .done ∧ (nextOf (step otherHash)).isSome = true) ∧
    (∃ f, step { abcBusy with q := [] } = .fault f) ∧ ∃ r, step (atLines [.rd { off := 2 }] abcBusy) = .refused r := by
  refine ⟨⟨rfl, by decide, by decide, by decide⟩, ⟨_, rfl⟩, ⟨_, rfl⟩⟩

/-- FinalIgnoresBytesPastTheTail: DATA that agrees on the first three bytes and not on the fourth. -/
theorem witness_tail_bytes :
    (∀ i < (3 : BitVec 6).toNat, (chunk (abcLoaded.data.set 0 0x616263FF))[i]? = (chunk abcLoaded.data)[i]?) ∧
    abcLoaded.data.set 0 0x616263FF ≠ abcLoaded.data := by decide

/-- QueuedWorkIsACopyOfData: turns that answer a next state, and a turn that faults. -/
theorem witness_internal_turns :
    (∃ t, internalTurns 1 abcBusy = .next t) ∧ ∃ f, internalTurns 1 { abcBusy with q := [] } = .fault f :=
  ⟨⟨_, rfl⟩, ⟨_, rfl⟩⟩

/-- StatusShowsAcceptedWork: an accepted BLOCK and an accepted FINAL with two blocks. -/
theorem witness_accepted :
    State.reset.Inv ∧ State.reset.phase = .ready ∧
    (nextOf (exec .block State.reset)).map (fun t => (t.phase, t.q.length)) = some (.busy, 1) ∧
    (nextOf (exec (.final 56) State.reset)).map (fun t => (t.phase, t.q.length)) = some (.busy, 2) :=
  ⟨inv_reset, by decide⟩

/-- DoneIsEnteredByTheLastFoldOnly: a FOLD that enters DONE. -/
theorem witness_enters_done :
    (inside .fold abcBusy).phase ≠ .done ∧ (nextOf (step (inside .fold abcBusy))).map (·.phase) = some .done := by decide

/-- OnlyTheNamedWritersWrite: a step for each clause that changes what the clause is about. -/
theorem witness_writers :
    (∃ t, step (inside .fold { abcBusy with reg := ⟨1, 2, 3, 4, 5, 6, 7, 8⟩ }) = .next t ∧ t.h ≠ abcBusy.h) ∧
    (∃ t, step (atLines [cmdLine 0x1] { doneState with h := Vector.replicate 8 5 }) = .next t ∧ t.h ≠ Vector.replicate 8 5) ∧
    (∃ t, step abcBusy = .next t ∧ t.reg.a ≠ abcBusy.reg.a ∧ t.w[0] ≠ abcBusy.w[0]) ∧
    (∃ t, step (atLines [cmdLine 0x33] abcLoaded) = .next t ∧ t.len ≠ abcLoaded.len ∧ t.fin ≠ abcLoaded.fin) ∧
    (∃ t, step (atLines [.wr (Access.reg (.data 3)) 7] abcBusy) = .next t ∧ t.data ≠ abcBusy.data) ∧
    nextTurn abcBusy ≠ .reset := by
  refine ⟨⟨_, rfl, by decide +kernel⟩, ⟨_, rfl, by decide +kernel⟩, ⟨_, rfl, by decide +kernel⟩, ⟨_, rfl, by decide +kernel⟩,
    ⟨_, rfl, by decide +kernel⟩, by decide⟩

/-- ResetEventFromEveryState: the reset event in BUSY. -/
theorem witness_reset_turn : nextTurn { abcBusy with sched := [.reset] } = .reset := rfl

/-- TheSchedulerDecidesWhoMoves: lists with each head, and the list used up. -/
theorem witness_schedules :
    ({ abcBusy with sched := [.host] }).sched = .host :: [] ∧ ({ abcBusy with sched := [.internal] }).sched = .internal :: [] ∧
    ({ abcBusy with sched := [.reset] }).sched = .reset :: [] ∧ abcBusy.sched = [] := by decide

/-- HostBranchFollowsTheNamedBit: a named value and a label, bit 31. -/
theorem witness_branch :
    let s := { State.reset with host := { prog := [.label 0], lines := [], named := [(7, 0x80000000)], obs := [] } }
    s.host.named.lookup 7 = some (0x80000000 : Word) ∧ 31 < 32 ∧ linesAfter 0 s.host.prog = some [] := by decide

/-- LdataFillsTheStagingBuffer: the lines of `ldata` and sixteen host turns. -/
theorem witness_ldata :
    let s := { loadProgram (psLdata [0x61] ++ []) State.reset with sched := List.replicate 16 Turn.host ++ [] }
    ([0x61] : List Byte).length ≤ 64 ∧ s.host.lines = psLdata [0x61] ++ [] ∧ s.sched = List.replicate 16 Turn.host ++ [] :=
  ⟨by decide, rfl, rfl⟩

/-- WaitTerminates: a host at `wait` while BUSY, with a list of turns. -/
theorem witness_wait :
    let s := { loadProgram (psWait 0 0) abcBusy with sched := [.host, .internal, .host] }
    s.Inv ∧ .reset ∉ s.sched ∧ s.host.lines = psWait 0 0 ++ [] ∧
      linesAfter 0 s.host.prog = some ((psWait 0 0).tail ++ []) := by
  refine ⟨?_, by decide, rfl, by decide⟩
  constructor
  · constructor <;> decide
  all_goals decide

/-- HostProtocolComputesTheDigest: the program of a message of 64 bytes, loaded after reset, with a list of turns. -/
theorem witness_protocol :
    let M : List Byte := List.replicate 64 0x61
    let s := { loadProgram (messageProgram M) State.reset with sched := [.host, .internal] }
    M.length ≤ 2 ^ 61 - 1 ∧ s.Inv ∧ .reset ∉ s.sched ∧ s.host.prog = messageProgram M ∧ s.host.lines = messageProgram M := by
  refine ⟨by decide, ?_, by decide, rfl, rfl⟩
  constructor
  · constructor <;> decide
  all_goals decide

end Sys2Proof.Tests
end

section
/-! Inversion lemmas: what a decoded word is, what an admitted access is, and everything a command, an illegal word and an
internal step can do; from these, what each of them leaves unchanged. -/

namespace Sys2Proof.Machine

/-! ### Command words and accesses -/

/-- A word is determined by its three fields (30 R70). -/
theorem fieldsOf_injective : Function.Injective fieldsOf := by
  intro v w h
  simp only [fieldsOf, CmdFields.mk.injEq, ← BitVec.toNat_inj, BitVec.extractLsb'_toNat, Nat.shiftRight_eq_div_pow] at h
  apply BitVec.eq_of_toNat_eq
  omega

theorem encoding_statement (i : Instr) : Laws.Encoding.Statement i := by
  cases i with
  | init => exact Laws.Encoding.init
  | block => exact Laws.Encoding.block
  | final nb => exact Laws.Encoding.final nb

theorem fieldsOf_of_decode {v : Word} {i : Instr} (h : decode v = .ok i) : fieldsOf v = i.fields := by
  generalize hc : fieldsOf v = c
  obtain ⟨op, nbytes, rsv⟩ := c
  simp only [decode, hc] at h
  split_ifs at h <;> cases h <;> simp_all [Instr.fields]

/-- The decoded instruction encodes back to the word (30 R75). -/
theorem eq_encode_of_decode {v : Word} {i : Instr} (h : decode v = .ok i) : v = encode i := by
  obtain ⟨-, hfields, -⟩ := encoding_statement i
  exact fieldsOf_injective ((fieldsOf_of_decode h).trans hfields.symm)

theorem legalWord_of_decode {v : Word} {i : Instr} (h : decode v = .ok i) : legalWord v = true := by
  obtain ⟨-, -, hlegal⟩ := encoding_statement i
  rwa [eq_encode_of_decode h]

theorem atWord_offset (k : Fin 32) : (Reg.atWord k).offset = 4 * k.val := by
  revert k; decide

/-- Only the access that names a register reaches it (20 R52, R53). -/
theorem eq_reg_of_decodeAccess {a : Access} {r : Reg} (h : decodeAccess a = .ok r) : a = Access.reg r := by
  unfold decodeAccess at h
  split_ifs at h with hb hm hr
  injection h with h
  have hoff := atWord_offset (Fin.ofNat 32 (a.off.toNat / 4))
  obtain ⟨off, bytes⟩ := a
  simp only [h, Fin.val_ofNat] at hoff
  simp only [Access.reg, Access.mk.injEq]
  simp only at hb hm hr
  omega

/-! ### Effects -/

/-- Everything a legal command does (42 R162 to R165). -/
inductive CommandEffect (s : State) : Instr → State → Prop where
  /-- INIT, in every phase. -/
  | start : CommandEffect s .init (startMessage s)
  /-- BLOCK and FINAL are ignored in ERROR. -/
  | ignored (i : Instr) (hi : i ≠ .init) (hp : s.phase = .error) : CommandEffect s i s
  /-- BLOCK and FINAL in BUSY or DONE, and a BLOCK beyond the length limit. -/
  | raised (i : Instr) (e : ErrorCode) (hi : i ≠ .init)
      (he : (s.phase = .busy ∧ e = .busy) ∨ (s.phase = .done ∧ e = .seq) ∨
        (s.phase = .ready ∧ i = .block ∧ tooLarge s = true ∧ e = .tooLarge)) : CommandEffect s i (raiseError e s)
  /-- BLOCK absorbs a chunk. -/
  | block (hp : s.phase = .ready) (hl : tooLarge s = false) :
      CommandEffect s .block (enqueue [chunk s.data] (s.len + 64) false s)
  /-- FINAL absorbs the tail. -/
  | final (nb : BitVec 6) (hp : s.phase = .ready) : CommandEffect s (.final nb) (finalInReady nb s)

/-- BLOCK and FINAL outside READY (42 R162). -/
theorem commandEffect_inReady {s : State} {i : Instr} {run : State → State} (hi : i ≠ .init)
    (hrun : s.phase = .ready → CommandEffect s i (run s)) : CommandEffect s i (inReady s run) := by
  cases hp : s.phase with
  | ready => rw [inReady_ready hp]; exact hrun hp
  | busy => rw [inReady_busy hp]; exact .raised i .busy hi (.inl ⟨hp, rfl⟩)
  | done => rw [inReady_done hp]; exact .raised i .seq hi (.inr (.inl ⟨hp, rfl⟩))
  | error => rw [inReady_error hp]; exact .ignored i hi hp

theorem exec_cases {i : Instr} {s t : State} (h : exec i s = .next t) : CommandEffect s i t := by
  cases i with
  | init => cases h; exact .start
  | block =>
    cases h
    refine commandEffect_inReady nofun fun hp => ?_
    unfold blockInReady
    split
    · next hl => exact .raised .block .tooLarge nofun (.inr (.inr ⟨hp, rfl, hl, rfl⟩))
    · next hl => exact .block hp (by simpa using hl)
  | final nb => cases h; exact commandEffect_inReady nofun (.final nb)

/-- An illegal word in ERROR is ignored, elsewhere it raises E_BAD_CMD (60 R204, R207). -/
theorem illegalCommand_cases (s : State) :
    (s.phase = .error ∧ illegalCommand s = s) ∨ (s.phase ≠ .error ∧ illegalCommand s = raiseError .badCmd s) := by
  by_cases h : s.phase = .error <;> simp [illegalCommand, h]

/-- The state after LOAD has taken the block B from Q and left `rest` (41 R136). -/
def loaded (B : Block) (rest : List Block) (s : State) : State :=
  { s with q := rest, w := sched (words B), reg := Regs.ofVec s.h, cstate := .rnd 0 }

/-- Everything an internal step does (41 R136 to R138). -/
inductive InternalEffect (s : State) : State → Prop where
  | load (B : Block) (rest : List Block) (hc : s.cstate = .idle) (hq : s.q = B :: rest) (hB : B.length = 64) :
      InternalEffect s (loaded B rest s)
  | rnd (n : Fin 64) (hc : s.cstate = .rnd n) : InternalEffect s (rnd n s)
  | fold (hc : s.cstate = .fold) : InternalEffect s (fold s)

theorem load_eq_next {s t : State} (h : load s = .next t) : ∃ B rest, s.q = B :: rest ∧ B.length = 64 ∧
    t = loaded B rest s := by
  unfold load at h
  split at h
  · cases h
  · next B rest hq =>
    split at h
    · next hB => cases h; exact ⟨B, rest, hq, hB, rfl⟩
    · cases h

theorem internalStep_cases {s t : State} (h : internalStep s = .next t) : InternalEffect s t := by
  cases hc : s.cstate with
  | idle =>
    obtain ⟨B, rest, hq, hB, rfl⟩ := load_eq_next (by simpa [internalStep, hc] using h)
    exact .load B rest hc hq hB
  | rnd n =>
    obtain rfl : Machine.rnd n s = t := by simpa [internalStep, hc] using h
    exact .rnd n hc
  | fold =>
    obtain rfl : Machine.fold s = t := by simpa [internalStep, hc] using h
    exact .fold hc

theorem afterRound_ne_idle (n : Fin 64) : afterRound n ≠ .idle := by
  unfold afterRound; split <;> nofun

/-- With Q empty a FOLD ends the BUSY phase (41 R138). -/
theorem phaseAfterFold_nil {s : State} (hq : s.q = []) : phaseAfterFold s = if s.fin then .done else .ready := by
  simp [phaseAfterFold, hq]

theorem phaseAfterFold_ne_nil {s : State} (hq : s.q ≠ []) : phaseAfterFold s = s.phase := by
  simp [phaseAfterFold, hq]

/-! ### Frames -/

/-- A command never touches a..h, W and DATA, and only INIT writes H. -/
theorem CommandEffect.frame {s t : State} {i : Instr} (h : CommandEffect s i t) :
    t.reg = s.reg ∧ t.w = s.w ∧ t.data = s.data ∧ (i ≠ .init → t.h = s.h) := by
  cases h with
  | start => simp
  | ignored => simp
  | raised => simp
  | block => simp
  | final => simp [finalInReady]

/-- An illegal word touches none of H, a..h, W, LEN, FIN and DATA. -/
theorem illegalCommand_frame (s : State) :
    (illegalCommand s).h = s.h ∧ (illegalCommand s).reg = s.reg ∧ (illegalCommand s).w = s.w ∧
      (illegalCommand s).len = s.len ∧ (illegalCommand s).fin = s.fin ∧ (illegalCommand s).data = s.data := by
  obtain ⟨-, h⟩ | ⟨-, h⟩ := illegalCommand_cases s <;> simp [h]

/-- An internal step touches none of LEN, FIN and DATA; only FOLD writes H, only LOAD and the rounds a..h, only LOAD W. -/
theorem InternalEffect.frame {s t : State} (h : InternalEffect s t) :
    t.len = s.len ∧ t.fin = s.fin ∧ t.data = s.data ∧ (s.cstate ≠ .fold → t.h = s.h) ∧
      (s.cstate = .fold → t.reg = s.reg) ∧ (s.cstate ≠ .idle → t.w = s.w) := by
  cases h with
  | load B rest hc => simp [loaded, hc]
  | rnd n hc => simp [hc]
  | fold hc => simp [hc]

end Sys2Proof.Machine
end

section
/-! The invariant of 10 R32 and R25: what it says in each phase, and that every move of a step keeps it (O50, O49). -/

namespace Sys2Proof.Machine

/-- The invariant speaks of six fields only. -/
theorem State.Inv.congr {s t : State} (hs : s.Inv) (hlen : t.len = s.len) (hphase : t.phase = s.phase)
    (hcstate : t.cstate = s.cstate) (hq : t.q = s.q) (hfin : t.fin = s.fin) (herr : t.errcode = s.errcode) : t.Inv := by
  cases s; cases t
  subst hlen hphase hcstate hq hfin herr
  exact { hs with }

theorem SameHw.inv {s t : State} (h : SameHw s t) (hs : s.Inv) : t.Inv := by
  obtain ⟨-, -, -, hlen, hphase, hcstate, hq, hfin, herr, -⟩ := h
  exact hs.congr hlen hphase hcstate hq hfin herr

/-- The blocks the core holds: those in Q, and the one the compressor works on. -/
def State.held (s : State) : Nat := s.q.length + (if s.cstate ≠ .idle then 1 else 0)

theorem held_of_idle {s : State} (hc : s.cstate = .idle) : s.held = s.q.length := by
  simp [State.held, hc]

theorem held_of_working {s : State} (hc : s.cstate ≠ .idle) : s.held = s.q.length + 1 := by
  simp [State.held, hc]

/-- The invariant in a phase other than BUSY. -/
theorem inv_of_rest {s : State} (hp : s.phase ≠ .busy) (hq : s.q = []) (hc : s.cstate = .idle)
    (herr : s.phase = .error ↔ s.errcode ≠ 0) (hcode : s.errcode.toNat ≤ 4) (hdone : s.phase = .done → s.fin = true)
    (hlen : s.len.toNat ≤ 2 ^ 61 - 1)
    (hopen : s.phase = .ready → s.len.toNat % 64 = 0 ∧ s.len.toNat ≤ 2 ^ 61 - 64) : s.Inv where
  busy_iff := by simp [hp, hq, hc]
  error_iff := herr
  rest_idle _ := ⟨hq, hc⟩
  done_fin := hdone
  queue_len := by simp [hq, hc]
  len_bound := hlen
  open_len h := hopen (by simpa [messageOpen, hp] using h)
  whole := by simp [hq]
  one_block _ := by simp [hq, hc]
  code_known := hcode

/-- The invariant in BUSY. -/
theorem inv_of_busy {s : State} (hp : s.phase = .busy) (hwork : s.q ≠ [] ∨ s.cstate ≠ .idle) (herr : s.errcode = 0)
    (hwhole : ∀ B ∈ s.q, B.length = 64) (hheld : s.held ≤ 2) (hone : s.fin = false → s.held ≤ 1)
    (hlen : s.len.toNat ≤ 2 ^ 61 - 1)
    (hopen : s.fin = false → s.len.toNat % 64 = 0 ∧ s.len.toNat ≤ 2 ^ 61 - 64) : s.Inv where
  busy_iff := by simp [hp, hwork]
  error_iff := by simp [hp, herr]
  rest_idle := by simp [hp]
  done_fin := by simp [hp]
  queue_len := ⟨(Nat.le_add_right _ _).trans hheld, hheld⟩
  len_bound := hlen
  open_len h := hopen (by simpa [messageOpen, hp] using h)
  whole := hwhole
  one_block := hone
  code_known := by simp [herr]

/-! ### What the invariant gives in a phase -/

section
variable {s : State} (hs : s.Inv)
include hs

theorem State.Inv.errcode_eq_zero (hp : s.phase ≠ .error) : s.errcode = 0 := by
  by_contra h
  exact hp (hs.error_iff.2 h)

theorem State.Inv.cstate_ready (hp : s.phase = .ready) : s.cstate = .idle := (hs.rest_idle (.inl hp)).2

theorem State.Inv.len_ready (hp : s.phase = .ready) : s.len.toNat % 64 = 0 ∧ s.len.toNat ≤ 2 ^ 61 - 64 :=
  hs.open_len (by simp [messageOpen, hp])

theorem State.Inv.len_busy (hp : s.phase = .busy) (hf : s.fin = false) :
    s.len.toNat % 64 = 0 ∧ s.len.toNat ≤ 2 ^ 61 - 64 :=
  hs.open_len (by simp [messageOpen, hp, hf])

theorem State.Inv.held_le_two : s.held ≤ 2 := hs.queue_len.2

theorem State.Inv.held_le_one (hf : s.fin = false) : s.held ≤ 1 := hs.one_block hf

end

/-! ### What keeps it -/

theorem startMessage_inv (s : State) : (startMessage s).Inv := by
  apply inv_of_rest <;> simp

theorem powerReset_inv (s : State) : (powerReset s).Inv := by
  apply inv_of_rest <;> simp

/-- The codes that exist are 1 to 4 (60 R201). -/
theorem code_bounds (e : ErrorCode) : e.code ≠ 0 ∧ e.code.toNat ≤ 4 := by
  cases e <;> decide

theorem raiseError_inv {s : State} (hs : s.Inv) (e : ErrorCode) : (raiseError e s).Inv :=
  inv_of_rest nofun rfl rfl (by simpa using (code_bounds e).1) (code_bounds e).2 nofun hs.len_bound nofun

theorem writeData_inv {s : State} (hs : s.Inv) (i : Fin 16) (v : Word) : (writeData i v s).Inv :=
  hs.congr rfl rfl rfl rfl rfl rfl

/-- A BLOCK within the limit does not wrap LEN (42 R164). -/
theorem blockLen_toNat {s : State} (hl : tooLarge s = false) : (s.len + 64).toNat = s.len.toNat + 64 := by
  rw [tooLarge_eq_false] at hl
  simp; omega

theorem enqueue_block_inv {s : State} (hs : s.Inv) (hp : s.phase = .ready) (hl : tooLarge s = false) :
    (enqueue [chunk s.data] (s.len + 64) false s).Inv := by
  obtain ⟨hmod, hle⟩ := hs.len_ready hp
  have hlen := blockLen_toNat hl
  rw [tooLarge_eq_false] at hl
  have hheld : (enqueue [chunk s.data] (s.len + 64) false s).held = 1 := held_of_idle (hs.cstate_ready hp)
  refine inv_of_busy rfl (.inl nofun) (hs.errcode_eq_zero (by simp [hp])) (by simp) (by omega) (fun _ => by omega) ?_
    fun _ => ?_
  · rw [enqueue_len]; omega
  · rw [enqueue_len]; omega

/-- The blocks of pad_tail: one or two, and whole (40 R107, R109). -/
theorem padTail_whole {T : List Byte} (hT : T.length ≤ 63) (L : BitVec 64) :
    padTail T L ≠ [] ∧ (padTail T L).length ≤ 2 ∧ ∀ B ∈ padTail T L, B.length = 64 := by
  have hz : zeros T.length = if T.length ≤ 55 then 55 - T.length else 119 - T.length := by
    rw [zeros_eq, Nat.mod_eq_of_lt (by omega)]
  unfold padTail
  split
  · next h => simp [hz, h]; omega
  · next h => simp [hz, h]; omega

/-- A FINAL after a LEN within R25's bound does not wrap it (42 R165). -/
theorem finalLen_toNat {s : State} (nb : BitVec 6) (h : s.len.toNat ≤ 2 ^ 61 - 64) :
    (finalLen nb s).toNat = s.len.toNat + nb.toNat := by
  have := nb.isLt
  simp [finalLen]; omega

theorem finalInReady_inv {s : State} (hs : s.Inv) (hp : s.phase = .ready) (nb : BitVec 6) : (finalInReady nb s).Inv := by
  have hnb := nb.isLt
  have hle := (hs.len_ready hp).2
  have hlen := finalLen_toNat nb hle
  obtain ⟨hne, hcount, hwhole⟩ := padTail_whole (T := tail s.data nb) (by simp; omega) (finalLen nb s)
  have hheld : (finalInReady nb s).held = _ := held_of_idle (hs.cstate_ready hp)
  refine inv_of_busy rfl (.inl hne) (hs.errcode_eq_zero (by simp [hp])) hwhole (hheld ▸ hcount) nofun ?_ nofun
  rw [finalInReady, enqueue_len]; omega

theorem exec_inv {s t : State} {i : Instr} (hs : s.Inv) (h : exec i s = .next t) : t.Inv := by
  cases exec_cases h with
  | start => exact startMessage_inv s
  | ignored => exact hs
  | raised _ e => exact raiseError_inv hs e
  | block hp hl => exact enqueue_block_inv hs hp hl
  | final nb hp => exact finalInReady_inv hs hp nb

theorem illegalCommand_inv {s : State} (hs : s.Inv) : (illegalCommand s).Inv := by
  obtain ⟨-, h⟩ | ⟨-, h⟩ := illegalCommand_cases s <;> rw [h]
  · exact hs
  · exact raiseError_inv hs .badCmd

/-- FOLD finishes the block in work: with Q empty the BUSY phase ends, else the next block is due. -/
theorem fold_inv {s : State} (hs : s.Inv) (hp : s.phase = .busy) (hc : s.cstate = .fold) : (fold s).Inv := by
  have herr := hs.errcode_eq_zero (by simp [hp])
  by_cases hq : s.q = []
  · have hphase := phaseAfterFold_nil hq
    cases hf : s.fin with
    | true =>
      simp only [hf, reduceIte] at hphase
      exact inv_of_rest (by simp [hphase]) hq rfl (by simp [hphase, herr]) (by simp [herr]) (fun _ => hf) hs.len_bound
        (by simp [hphase])
    | false =>
      simp only [hf, reduceIte, Bool.false_eq_true] at hphase
      exact inv_of_rest (by simp [hphase]) hq rfl (by simp [hphase, herr]) (by simp [herr]) (by simp [hphase]) hs.len_bound
        fun _ => hs.len_busy hp hf
  · have hheld : (fold s).held + 1 = s.held := by
      rw [held_of_idle (fold_cstate s), held_of_working (by simp [hc]), fold_q]
    have htwo := hs.held_le_two
    exact inv_of_busy (by simp [phaseAfterFold_ne_nil hq, hp]) (.inl hq) herr hs.whole (by omega)
      (fun hf => by have := hs.held_le_one hf; omega) hs.len_bound (hs.len_busy hp)

theorem internalStep_inv {s t : State} (hs : s.Inv) (hp : s.phase = .busy) (h : internalStep s = .next t) : t.Inv := by
  have herr := hs.errcode_eq_zero (by simp [hp])
  cases internalStep_cases h with
  | load B rest hc hq hB =>
    have hheld : (loaded B rest s).held = s.held := by
      rw [held_of_idle hc, held_of_working (by simp [loaded]), hq, List.length_cons, loaded]
    have hwhole : ∀ B' ∈ rest, B'.length = 64 := fun B' hB' => hs.whole B' (hq ▸ List.mem_cons_of_mem B hB')
    exact inv_of_busy hp (.inr nofun) herr hwhole (hheld ▸ hs.held_le_two) (fun hf => hheld ▸ hs.held_le_one hf)
      hs.len_bound (hs.len_busy hp)
  | rnd n hc =>
    have hheld : (rnd n s).held = s.held := by
      rw [held_of_working (afterRound_ne_idle n), held_of_working (by simp [hc]), rnd_q]
    exact inv_of_busy hp (.inr (afterRound_ne_idle n)) herr hs.whole (hheld ▸ hs.held_le_two)
      (fun hf => hheld ▸ hs.held_le_one hf) hs.len_bound (hs.len_busy hp)
  | fold hc => exact fold_inv hs hp hc

/-- Settles O50, by the cases of what a step can do: each move keeps the invariant. -/
theorem everyStepKeepsTheInvariant : Obligations.EveryStepKeepsTheInvariant := by
  intro s t hs h
  obtain ⟨u, hu, hmove⟩ := step_cases h
  have hu := hu.inv hs
  cases hmove with
  | quiet h => exact h.inv hu
  | command _ i _ _ _ _ he => exact exec_inv hu he
  | illegal _ _ _ _ _ _ he => exact he ▸ illegalCommand_inv hu
  | data i v _ _ _ _ _ he => exact he ▸ writeData_inv hu i v
  | internal _ hb he => exact internalStep_inv hu hb he
  | reset _ he => exact he ▸ powerReset_inv u

/-- Settles O49: the reset state is what the reset event makes of it. -/
theorem resetStateMeetsTheInvariant : Obligations.ResetStateMeetsTheInvariant := powerReset_inv State.reset

end Sys2Proof.Machine
end

section
/-! Who enters DONE and who writes H, a..h, W, LEN, FIN and DATA (O45, O46). -/

namespace Sys2Proof.Machine

/-- No command ends in DONE. -/
theorem CommandEffect.phase_ne_done {s t : State} {i : Instr} (h : CommandEffect s i t) : t.phase ≠ .done := by
  cases h with
  | start => simp
  | ignored _ _ hp => simp [hp]
  | raised => simp
  | block => simp
  | final => simp [finalInReady]

/-- The internal step that enters DONE is the FOLD of a FINAL's last block (41 R138). -/
theorem InternalEffect.enters_done {s t : State} (h : InternalEffect s t) (hs : s.phase ≠ .done) (ht : t.phase = .done) :
    s.cstate = .fold ∧ s.q = [] ∧ s.fin = true := by
  cases h with
  | load => exact absurd ht hs
  | rnd => exact absurd ht hs
  | fold hc =>
    rw [fold_phase] at ht
    by_cases hq : s.q = []
    · refine ⟨hc, hq, ?_⟩
      by_contra hf
      simp [phaseAfterFold_nil hq, hf] at ht
    · exact absurd (phaseAfterFold_ne_nil hq ▸ ht) hs

/-- Settles O45, by the cases of what a step can do: only the internal step can enter DONE. -/
theorem doneIsEnteredByTheLastFoldOnly : Obligations.DoneIsEnteredByTheLastFoldOnly := by
  intro s t h hs ht
  obtain ⟨u, ⟨-, -, -, -, hphase, hcstate, hq, hfin, -, -⟩, hmove⟩ := step_cases h
  rw [← hphase] at hs ⊢
  rw [← hcstate, ← hq, ← hfin]
  cases hmove with
  | quiet hsame =>
    obtain ⟨-, -, -, -, hsame, -⟩ := hsame
    exact absurd (hsame ▸ ht) hs
  | command _ _ _ _ _ _ he => exact absurd ht (exec_cases he).phase_ne_done
  | illegal _ _ _ _ _ _ he =>
    obtain ⟨-, hi⟩ | ⟨-, hi⟩ := illegalCommand_cases u <;> rw [he, hi] at ht
    · exact absurd ht hs
    · cases ht
  | data _ _ _ _ _ _ _ he => exact absurd (by simpa [he] using ht) hs
  | internal hturn hb he => exact ⟨hturn, hb, (internalStep_cases he).enters_done hs ht⟩
  | reset _ he => rw [he] at ht; cases ht

/-- Settles O46, by the frame of each move. -/
theorem onlyTheNamedWritersWrite : Obligations.OnlyTheNamedWritersWrite := by
  intro s t h hreset
  obtain ⟨u, ⟨hh, hreg, hw, hlen, hphase, hcstate, -, hfin, -, hdata⟩, hmove⟩ := step_cases h
  simp only [← hh, ← hreg, ← hw, ← hlen, ← hphase, ← hcstate, ← hfin, ← hdata]
  cases hmove with
  | quiet hsame =>
    obtain ⟨hh, hreg, hw, hlen, -, -, -, hfin, -, hdata⟩ := hsame
    simp [hh, hreg, hw, hlen, hfin, hdata]
  | command v i rest ht hl hd he =>
    obtain ⟨hreg, hw, hdata, hh⟩ := (exec_cases he).frame
    refine ⟨fun hne => .inr ⟨ht, rest, ?_⟩, absurd hreg, absurd hw, fun _ => ⟨ht, v, rest, hl, legalWord_of_decode hd⟩,
      absurd hdata⟩
    obtain rfl : i = .init := by
      by_contra hi
      exact hne (hh hi)
    rw [hl, eq_encode_of_decode hd]
  | illegal v e rest ht hl hd he =>
    obtain ⟨hh, hreg, hw, hlen, hfin, hdata⟩ := illegalCommand_frame u
    simp [he, hh, hreg, hw, hlen, hfin, hdata]
  | data i v a rest ht hl ha he =>
    subst he
    refine ⟨by simp, by simp, by simp, by simp, fun _ => ⟨ht, i, v, rest, ?_, by simp, fun j hj => ?_⟩⟩
    · rw [hl, eq_reg_of_decodeAccess ha]
    · exact Vector.getElem_set_ne i.isLt j.isLt (by simpa [Fin.ext_iff] using hj.symm)
  | internal ht hb he =>
    obtain ⟨hlen, hfin, hdata, hh, hreg, hw⟩ := (internalStep_cases he).frame
    refine ⟨fun hne => .inl ⟨ht, hb, ?_⟩, fun hne => ⟨ht, hb, fun hc => hne (hreg hc)⟩, fun hne => ⟨ht, hb, ?_⟩,
      by simp [hlen, hfin], absurd hdata⟩
    · by_contra hc
      exact hne (hh hc)
    · by_contra hc
      exact hne (hw hc)
  | reset ht => exact absurd ht hreset

end Sys2Proof.Machine
end

section
/-! The fields of STATUS (O27). -/

namespace Sys2Proof.Machine

/-- Bits 3 to 0 of STATUS: one flag per phase, none in READY (10 R39). -/
def phaseBits : Phase → BitVec 4
  | .ready => 0
  | .busy => 1
  | .done => 2
  | .error => 4

/-- STATUS is 24 zero bits, ERRCODE and the flags (10 R39). -/
theorem statusWord_eq (s : State) : statusWord s = (0 : BitVec 24) ++ s.errcode ++ phaseBits s.phase := by
  have h (e : BitVec 4) (p : Phase) :
      (e.zeroExtend 32 <<< 4) ||| flagAt 2 (p == .error) ||| flagAt 1 (p == .done) ||| flagAt 0 (p == .busy) =
        (0 : BitVec 24) ++ e ++ phaseBits p := by
    revert e
    cases p <;> decide
  exact h s.errcode s.phase

theorem statusWord_getLsbD (s : State) {i : Nat} (hi : i < 4) :
    (statusWord s).getLsbD i = (phaseBits s.phase).getLsbD i := by
  rw [statusWord_eq, BitVec.getLsbD_append, if_pos hi]

theorem statusWord_flags (s : State) : (statusWord s).extractLsb' 0 3 = (phaseBits s.phase).extractLsb' 0 3 := by
  rw [statusWord_eq, BitVec.extractLsb'_append_eq_of_add_le]
  decide

theorem statusWord_errcode (s : State) : (statusWord s).extractLsb' 4 4 = s.errcode := by
  rw [statusWord_eq, BitVec.extractLsb'_append_eq_of_le (by decide), BitVec.extractLsb'_append_eq_of_add_le (by decide)]
  simp

theorem statusWord_high_bits (s : State) : (statusWord s).extractLsb' 8 24 = 0 := by
  rw [statusWord_eq, BitVec.extractLsb'_append_eq_of_le (by decide), BitVec.extractLsb'_append_eq_of_le (by decide)]
  simp

/-- Settles O27: STATUS field by field, then by phase. -/
theorem statusBitsFollowThePhase : Obligations.StatusBitsFollowThePhase := by
  intro s
  simp only [busRead, statusWord_getLsbD s, statusWord_flags, statusWord_errcode, statusWord_high_bits, Nat.reduceLT]
  cases s.phase <;> simp [phaseBits]

end Sys2Proof.Machine
end

section
/-! The constant tables (O5, O6): the first 64 primes, and the brackets of their roots. -/

namespace Sys2Proof.Machine

/-- The primes p_0 … p_63 of 10 R23 and R24. -/
def firstPrimes : Vector Nat 64 :=
  #v[2, 3, 5, 7, 11, 13, 17, 19, 23, 29, 31, 37, 41, 43, 47, 53, 59, 61, 67, 71, 73, 79, 83, 89, 97, 101, 103, 107, 109, 113,
    127, 131, 137, 139, 149, 151, 157, 163, 167, 173, 179, 181, 191, 193, 197, 199, 211, 223, 227, 229, 233, 239, 241, 251,
    257, 263, 269, 271, 277, 281, 283, 293, 307, 311]

/-- No number from 2 to 17 is a proper divisor of n. Primality below 18^2 in a form that evaluates fast. -/
def passesTrialDivision (n : Nat) : Bool := (List.range' 2 16).all fun m => n ≤ m || n % m ≠ 0

theorem passesTrialDivision_iff (n : Nat) :
    passesTrialDivision n = true ↔ ∀ m, 2 ≤ m → m < 18 → m < n → ¬ m ∣ n := by
  simp [passesTrialDivision, List.mem_range'_1, Nat.dvd_iff_mod_eq_zero, or_iff_not_imp_left]

theorem prime_iff_passesTrialDivision {n : Nat} (h2 : 2 ≤ n) (h : n < 18 ^ 2) :
    n.Prime ↔ passesTrialDivision n = true := by
  rw [passesTrialDivision_iff]
  constructor
  · intro hp m hm _ hlt hdvd
    rcases (Nat.dvd_prime hp).1 hdvd with rfl | rfl <;> omega
  · intro hd
    refine Nat.prime_def_le_sqrt.2 ⟨h2, fun m hm hs => hd m hm ?_ ?_⟩
    · exact hs.trans_lt (Nat.sqrt_lt'.2 h)
    · exact hs.trans_lt (Nat.sqrt_lt_self h2)

theorem firstPrimes_bounds : ∀ i : Fin 64, 2 ≤ firstPrimes[i] ∧ firstPrimes[i] < 18 ^ 2 := by decide

theorem firstPrimes_pass : ∀ i : Fin 64, passesTrialDivision firstPrimes[i] = true := by decide

/-- The table increases, and no number between two neighbours passes. -/
theorem firstPrimes_gap : ∀ i : Fin 63, firstPrimes[i.val] < firstPrimes[i.val + 1] ∧
    ∀ d < firstPrimes[i.val + 1] - firstPrimes[i.val] - 1, passesTrialDivision (firstPrimes[i.val] + 1 + d) = false := by
  decide

theorem firstPrimes_prime (i : Fin 64) : firstPrimes[i].Prime := by
  obtain ⟨h2, h⟩ := firstPrimes_bounds i
  exact (prime_iff_passesTrialDivision h2 h).2 (firstPrimes_pass i)

theorem not_prime_between_firstPrimes (i : Fin 63) {m : Nat} (hlt : firstPrimes[i.val] < m)
    (hm : m < firstPrimes[i.val + 1]) : ¬ m.Prime := by
  obtain ⟨-, hgap⟩ := firstPrimes_gap i
  obtain ⟨h2, -⟩ : 2 ≤ firstPrimes[i.val] ∧ _ := firstPrimes_bounds i.castSucc
  obtain ⟨-, h⟩ : _ ∧ firstPrimes[i.val + 1] < _ := firstPrimes_bounds i.succ
  have hfail := hgap (m - firstPrimes[i.val] - 1) (by omega)
  rw [show firstPrimes[i.val] + 1 + (m - firstPrimes[i.val] - 1) = m by omega] at hfail
  rw [prime_iff_passesTrialDivision (by omega) (by omega), hfail]
  exact Bool.false_ne_true

/-- The prime that follows the k-th one with none between is the (k + 1)-th. -/
theorem nth_prime_succ_eq {k a b : Nat} (ha : Nat.nth Nat.Prime k = a) (hb : b.Prime) (hab : a < b)
    (hgap : ∀ m, a < m → m < b → ¬ m.Prime) : Nat.nth Nat.Prime (k + 1) = b := by
  have hlt : a < Nat.nth Nat.Prime (k + 1) := ha ▸ Nat.nth_strictMono Nat.infinite_setOfPred_prime k.lt_succ_self
  apply le_antisymm
  · by_contra h
    exact absurd (Nat.le_nth_of_lt_nth_succ (not_le.1 h) hb) (by omega)
  · by_contra h
    exact hgap _ hlt (not_le.1 h) (Nat.prime_nth_prime _)

theorem nth_prime_eq_firstPrimes (i : Nat) (h : i < 64) : Nat.nth Nat.Prime i = firstPrimes[i] := by
  induction i with
  | zero => exact Nat.nth_prime_zero_eq_two
  | succ i ih =>
    obtain ⟨hlt, -⟩ := firstPrimes_gap ⟨i, by omega⟩
    exact nth_prime_succ_eq (ih (by omega)) (firstPrimes_prime ⟨i + 1, h⟩) hlt
      fun m => not_prime_between_firstPrimes ⟨i, by omega⟩

/-- K[i] behind the whole part m of the cube root is the root times 2^32, rounded down (10 R23). -/
theorem K_brackets_cubeRoot : ∀ i : Fin 64, ∃ m < 7,
    (2 ^ 32 * m + (K i).toNat) ^ 3 ≤ firstPrimes[i] * 2 ^ 96 ∧
      firstPrimes[i] * 2 ^ 96 < (2 ^ 32 * m + (K i).toNat + 1) ^ 3 := by
  decide

/-- H0[i] behind the whole part m of the square root is the root times 2^32, rounded down (10 R24). -/
theorem H0_brackets_squareRoot : ∀ i : Fin 8, ∃ m < 5,
    (2 ^ 32 * m + H0[i].toNat) ^ 2 ≤ firstPrimes[i.val] * 2 ^ 64 ∧
      firstPrimes[i.val] * 2 ^ 64 < (2 ^ 32 * m + H0[i].toNat + 1) ^ 2 := by
  decide

theorem toNat_eq_mod_behind (m : Nat) (v : Word) : v.toNat = (2 ^ 32 * m + v.toNat) % 2 ^ 32 := by
  rw [Nat.mul_add_mod, Nat.mod_eq_of_lt v.isLt]

/-- Settles O5: the i-th prime is the table's, and K[i] with the whole part of its cube root is the bracketed number. -/
theorem roundConstantsAreCubeRootFractions : Obligations.RoundConstantsAreCubeRootFractions := by
  intro i
  obtain ⟨m, -, hle, hlt⟩ := K_brackets_cubeRoot i
  rw [nth_prime_eq_firstPrimes i i.isLt]
  exact ⟨_, hle, hlt, toNat_eq_mod_behind m (K i)⟩

/-- Settles O6: as O5, with the square root. -/
theorem initialHashIsSquareRootFractions : Obligations.InitialHashIsSquareRootFractions := by
  intro i
  obtain ⟨m, -, hle, hlt⟩ := H0_brackets_squareRoot i
  rw [nth_prime_eq_firstPrimes i (by omega)]
  exact ⟨_, hle, hlt, toNat_eq_mod_behind m H0[i]⟩

end Sys2Proof.Machine
end

section
/-! Big-endian serialization read back: byte 4i + j of a serialized vector, and its words (O14). -/

namespace Sys2Proof.Machine

theorem be32bytes_getElem? (v : Word) (j : Fin 4) : (be32bytes v)[j.val]? = some (v.extractLsb' (24 - 8 * j.val) 8) := by
  fin_cases j <;> rfl

theorem flatMap_be32bytes_getElem? (ws : List Word) (i : Nat) (h : i < ws.length) (j : Fin 4) :
    (ws.flatMap be32bytes)[4 * i + j.val]? = some (ws[i].extractLsb' (24 - 8 * j.val) 8) := by
  induction ws generalizing i with
  | nil => cases h
  | cons v ws ih =>
    cases i with
    | zero =>
      rw [List.flatMap_cons, Nat.mul_zero, Nat.zero_add, List.getElem?_append_left (by simp)]
      exact be32bytes_getElem? v j
    | succ i =>
      rw [List.flatMap_cons, List.getElem?_append_right (by simp; omega), be32bytes_length,
        show 4 * (i + 1) + j.val - 4 = 4 * i + j.val by omega]
      exact ih i (by simpa using h)

theorem serialize_getElem? {n : Nat} (ws : Vector Word n) (i : Fin n) (j : Fin 4) :
    (serialize ws)[4 * i.val + j.val]? = some (ws[i].extractLsb' (24 - 8 * j.val) 8) :=
  flatMap_be32bytes_getElem? ws.toList i (by simp) j

theorem be32_flatMap_be32bytes (ws : List Word) (i : Nat) (h : i < ws.length) :
    be32 (ws.flatMap be32bytes) (4 * i) = ws[i] := by
  induction ws generalizing i with
  | nil => cases h
  | cons v ws ih =>
    cases i with
    | zero => exact be32_be32bytes v _
    | succ i =>
      rw [List.flatMap_cons, Nat.mul_succ, Nat.add_comm]
      exact (be32_append (be32bytes v) _ _).trans (ih i (by simpa using h))

/-- The word at 4i of a serialized vector is its entry i (20 R55). -/
theorem be32_serialize {n : Nat} (ws : Vector Word n) (i : Fin n) : be32 (serialize ws) (4 * i.val) = ws[i] :=
  be32_flatMap_be32bytes ws.toList i (by simp)

/-- The words of the chunk are DATA. -/
theorem words_chunk (data : Vector Word 16) : words (chunk data) = data := by
  ext i hi
  rw [words_getElem _ i hi]
  congr 1
  exact be32_serialize data ⟨i, hi⟩

/-- Settles O14: the chunk is the serialization of DATA, read by bytes and by words. -/
theorem dataPackingIsBigEndian : Obligations.DataPackingIsBigEndian := fun data =>
  ⟨chunk_length data, serialize_getElem? data, be32_serialize data, words_chunk data⟩

end Sys2Proof.Machine
end

section
/-! The accesses of the register window: which are admitted, which register each reaches, and the refusal of the others (O24, O25). -/

namespace Sys2Proof.Machine

/-- An access is admitted iff it is 32 bits wide, aligned and in the window (20 R52). -/
theorem exists_decodeAccess_eq_ok_iff (a : Access) :
    (∃ r, decodeAccess a = .ok r) ↔ (a.bytes = 4 ∧ a.off % 4 = 0 ∧ 0 ≤ a.off ∧ a.off ≤ 0x7C) := by
  unfold decodeAccess
  split_ifs with hb hm hr
  · simp [hb]
  · simp [hm]
  · simp; omega
  · simp; omega

@[simp] theorem decodeAccess_reg (r : Reg) : decodeAccess (Access.reg r) = .ok r := by
  cases r with
  | cmd | status | msglenLo | msglenHi => rfl
  | reserved i | digest i | data i => revert i; decide

theorem decodeAccess_eq_ok_iff {a : Access} {r : Reg} : decodeAccess a = .ok r ↔ a = Access.reg r :=
  ⟨eq_reg_of_decodeAccess, fun h => h ▸ decodeAccess_reg r⟩

/-- An access that is not admitted is refused, written, read or read into a name. -/
theorem hostLine_refused {a : Access} {e : BadAccess} (h : decodeAccess a = .error e) (v : Word) (x : HostName) (s : State) :
    hostLine (.wr a v) s = .refused (accessRefusal e) ∧ hostLine (.rd a) s = .refused (accessRefusal e) ∧
      hostLine (.rdTo a x) s = .refused (accessRefusal e) := by
  simp [hostLine, accessWrite, accessRead, h]

/-- Settles O24: an access that is not admitted decodes to an error, and each error has its refusal. -/
theorem accessesOutsideTheInterfaceAreRefused : Obligations.AccessesOutsideTheInterfaceAreRefused := by
  intro a v x s
  rw [exists_decodeAccess_eq_ok_iff]
  refine ⟨.rfl, fun hbad => ?_⟩
  rw [← exists_decodeAccess_eq_ok_iff] at hbad
  cases ha : decodeAccess a with
  | ok r => exact absurd ⟨r, ha⟩ hbad
  | error e => exact ⟨accessRefusal e, by cases e <;> simp [accessRefusal], hostLine_refused ha v x s⟩

theorem atAddress_eq_reg_iff {addr : Int} {bytes : Nat} {r : Reg} :
    Access.atAddress addr bytes = Access.reg r ↔ bytes = 4 ∧ addr = Config.base + r.offset := by
  simp only [Access.atAddress, Access.reg, Access.mk.injEq]
  omega

/-- Settles O25: the only access that reaches a register is the one at its offset from BASE. -/
theorem addressMapOfTheWindow : Obligations.AddressMapOfTheWindow :=
  ⟨⟨rfl, rfl, rfl, rfl, fun _ => rfl, fun _ => rfl, fun _ => rfl⟩, Int.mul_emod_right _ _,
    fun _ _ _ => decodeAccess_eq_ok_iff.trans atAddress_eq_reg_iff⟩

end Sys2Proof.Machine
end

section
/-! Whose turn a step takes, and what the host's turn does on each access (O53, O29). -/

namespace Sys2Proof.Machine

/-! ### Turns -/

theorem step_cons {s : State} {t : Turn} {ts : List Turn} (h : s.sched = t :: ts) :
    step s = takeTurn t { s with sched := ts } := by
  simp [step, nextTurn_cons h, dropTurn, h]

theorem step_nil {s : State} (h : s.sched = []) : step s = takeTurn (fairTurn s) s := by
  have hdrop : dropTurn s = s := by cases s; cases h; rfl
  rw [step, nextTurn_nil h, hdrop]

/-- A host turn runs the host's next line, the host already past it. -/
theorem step_hostLine {s : State} {line : HostLine} {rest : List HostLine} (ht : nextTurn s = .host)
    (hl : s.host.lines = line :: rest) : step s = hostLine line (setLines rest (dropTurn s)) := by
  simp [step, ht, takeTurn, hostTurn, hl]

/-- Settles O53, by the head of the list. -/
theorem theSchedulerDecidesWhoMoves : Obligations.TheSchedulerDecidesWhoMoves := by
  intro s ts
  refine ⟨fun h => step_cons h, fun h => step_cons h, fun h => ⟨_, step_cons h, rfl, rfl⟩, fun h => ?_⟩
  rw [step_nil h]
  by_cases hp : s.phase = .busy <;> simp [fairTurn, hp, takeTurn]

/-! ### Accesses of a register -/

theorem hostLine_rd_reg (r : Reg) (s : State) : hostLine (.rd (Access.reg r)) s = .next (observe (busRead r s) s) := by
  simp [hostLine, accessRead]

theorem hostLine_rdTo_reg (r : Reg) (x : HostName) (s : State) :
    hostLine (.rdTo (Access.reg r) x) s = .next (nameValue x (busRead r s) (observe (busRead r s) s)) := by
  simp [hostLine, accessRead]

/-- What a register reads is the hardware's only. -/
theorem SameHw.busRead_eq {s t : State} (h : SameHw s t) (r : Reg) : busRead r t = busRead r s := by
  obtain ⟨hh, -, -, hlen, hphase, -, -, -, herr, hdata⟩ := h
  cases r <;> simp [busRead, statusWord, errFlag, doneFlag, busyFlag, digestWord, hh, hlen, hphase, herr, hdata]

theorem sameHw_setLines_dropTurn (ls : List HostLine) (s : State) : SameHw s (setLines ls (dropTurn s)) := by
  simp [SameHw]

theorem writeData_writeData (i : Fin 16) (v : Word) (s : State) : writeData i v (writeData i v s) = writeData i v s := by
  simp [writeData]

/-- A write to a register other than CMD and DATA has no effect (20 R54). -/
theorem busWrite_readOnly {r : Reg} (hc : r ≠ .cmd) (hd : ∀ i, r ≠ .data i) (v : Word) (s : State) :
    busWrite r v s = .next s := by
  cases r with
  | cmd => exact absurd rfl hc
  | data i => exact absurd rfl (hd i)
  | status | msglenLo | msglenHi | reserved | digest => rfl

/-- The second of two equal BLOCK words finds the core BUSY, and raises E_BUSY (60 R205). -/
theorem command_block_twice (s : State) (hp : s.phase = .ready) (hl : tooLarge s = false) :
    ∃ t, command 2 s = .next t ∧ t.phase = .busy ∧ command 2 t = .next (raiseError .busy t) := by
  have hblock (u : State) : command 2 u = .next (inReady u blockInReady) := rfl
  refine ⟨enqueue [chunk s.data] (s.len + 64) false s, ?_, rfl, ?_⟩
  · rw [hblock, inReady_ready hp, blockInReady, hl]; rfl
  · rw [hblock, inReady_busy rfl]

/-- Settles O29: a read line observes what the register reads, and two BLOCK words after reset are not one. -/
theorem sideEffectsOfHostAccesses : Obligations.SideEffectsOfHostAccesses := by
  refine ⟨fun s r rest ht hl => ?_, fun s r x rest ht hl => ?_, fun s t u i v ht hu => ?_, fun s t r v hc hd ht => ?_, ?_⟩
  · rw [step_hostLine ht hl, hostLine_rd_reg, (sameHw_setLines_dropTurn rest s).busRead_eq]
    rfl
  · rw [step_hostLine ht hl, hostLine_rdTo_reg, (sameHw_setLines_dropTurn rest s).busRead_eq]
    exact ⟨_, rfl, by simp [SameHw], rfl, by simp, rfl⟩
  · cases ht
    cases hu
    exact writeData_writeData i v s
  · rw [busWrite_readOnly hc hd] at ht
    cases ht
    rfl
  · obtain ⟨t, ht, hp, hu⟩ := command_block_twice State.reset rfl (by decide)
    refine ⟨State.reset, t, raiseError .busy t, 2, ht, hu, fun h => ?_⟩
    rw [← h] at hp
    cases hp

end Sys2Proof.Machine
end

section
/-! The compressor's turns after accepted work: how many internal steps are left, and what STATUS reads meanwhile (O44). -/

namespace Sys2Proof.Machine

/-! ### The internal steps left -/

/-- The internal steps that finish the block in work: the rounds to come and FOLD (41 R140). -/
def CState.stepsLeft : CState → Nat
  | .idle => 0
  | .rnd t => 65 - t.val
  | .fold => 1

/-- The internal steps that finish all accepted work: 66 for each queued block, after those of the block in work. -/
def State.stepsLeft (s : State) : Nat := 66 * s.q.length + s.cstate.stepsLeft

theorem afterRound_stepsLeft (t : Fin 64) : (afterRound t).stepsLeft + 1 = 65 - t.val := by
  unfold afterRound
  split <;> simp only [CState.stepsLeft] <;> omega

/-- Each internal step is one of those left. -/
theorem InternalEffect.stepsLeft_succ {s t : State} (h : InternalEffect s t) : t.stepsLeft + 1 = s.stepsLeft := by
  cases h with
  | load B rest hc hq => simp [State.stepsLeft, loaded, hc, hq, CState.stepsLeft]; omega
  | rnd n hc => rw [State.stepsLeft, State.stepsLeft, rnd_q, rnd_cstate, hc, Nat.add_assoc, afterRound_stepsLeft]; rfl
  | fold hc => simp [State.stepsLeft, hc, CState.stepsLeft]

/-- The phase while n internal steps are left, and the one the last FOLD ends in (41 R138). -/
def phaseWithLeft (fin : Bool) (n : Nat) : Phase := if n = 0 then (if fin then .done else .ready) else .busy

/-- The internal step that leaves none ends the BUSY phase. -/
theorem InternalEffect.phase_eq {s t : State} (h : InternalEffect s t) (hp : s.phase = .busy) :
    t.phase = phaseWithLeft t.fin t.stepsLeft := by
  cases h with
  | load B rest => simp [phaseWithLeft, State.stepsLeft, loaded, CState.stepsLeft, hp]
  | rnd n =>
    have hleft := afterRound_stepsLeft n
    rw [phaseWithLeft, if_neg (by simp only [State.stepsLeft, rnd_cstate]; omega), rnd_phase, hp]
  | fold =>
    have hleft : (Machine.fold s).stepsLeft = 66 * s.q.length := rfl
    by_cases hq : s.q = []
    · rw [phaseWithLeft, if_pos (by simp [hleft, hq]), fold_phase, phaseAfterFold_nil hq, fold_fin]
    · rw [phaseWithLeft, if_neg (by simp [hleft, hq]), fold_phase, phaseAfterFold_ne_nil hq, hp]

/-- While BUSY an internal step completes: the invariant leaves LOAD no fault (41 R139). -/
theorem internalStep_completes {s : State} (hs : s.Inv) (hp : s.phase = .busy) : ∃ t, internalStep s = .next t := by
  cases hc : s.cstate with
  | idle =>
    cases hq : s.q with
    | nil => simpa [hq, hc] using hs.busy_iff.1 hp
    | cons B rest => exact ⟨_, by rw [internalStep, hc]; exact load_cons hq (hs.whole B (by simp [hq]))⟩
  | rnd n => exact ⟨_, by rw [internalStep, hc]⟩
  | fold => exact ⟨_, by rw [internalStep, hc]⟩

/-! ### Work under way -/

/-- A state in which accepted work has n internal steps left, FIN being as the command set it; with n = 0 the work is finished. -/
structure WorkLeft (fin : Bool) (n : Nat) (s : State) : Prop where
  inv : s.Inv
  fin_eq : s.fin = fin
  steps : s.stepsLeft = n
  phase_eq : s.phase = phaseWithLeft fin n

/-- A turn of the compressor takes one internal step of the work, if any is left. -/
theorem WorkLeft.internalTurn {fin : Bool} {n : Nat} {s : State} (h : WorkLeft fin n s) :
    ∃ t, internalTurn s = .next t ∧ WorkLeft fin (n - 1) t := by
  obtain ⟨hs, hfin, hsteps, hphase⟩ := h
  by_cases hp : s.phase = .busy
  · obtain ⟨t, ht⟩ := internalStep_completes hs hp
    have heff := internalStep_cases ht
    obtain ⟨-, hfin', -⟩ := heff.frame
    have hsucc := heff.stepsLeft_succ
    have hleft : t.stepsLeft = n - 1 := by omega
    refine ⟨t, (internalTurn_busy hp).trans ht, internalStep_inv hs hp ht, hfin'.trans hfin, hleft, ?_⟩
    rw [heff.phase_eq hp, hfin', hfin, hleft]
  · obtain rfl : n = 0 := by
      by_contra hn
      exact hp (by rw [hphase, phaseWithLeft, if_neg hn])
    exact ⟨s, internalTurn_rest hp, hs, hfin, hsteps, hphase⟩

theorem WorkLeft.internalTurns {fin : Bool} {n : Nat} {s : State} (h : WorkLeft fin n s) (m : Nat) :
    ∃ t, internalTurns m s = .next t ∧ WorkLeft fin (n - m) t := by
  induction m generalizing n s with
  | zero => exact ⟨s, rfl, h⟩
  | succ m ih =>
    obtain ⟨u, hu, hwork⟩ := h.internalTurn
    obtain ⟨t, ht, hwork⟩ := ih hwork
    exact ⟨t, (internalTurns_succ hu m).trans ht, by rwa [Nat.add_comm, ← Nat.sub_sub]⟩

/-- STATUS is 1 until the work is finished, then 2 after a FINAL and 0 after a BLOCK (20 R60). -/
theorem WorkLeft.status {fin : Bool} {n : Nat} {s : State} (h : WorkLeft fin n s) :
    busRead .status s = if n = 0 then (if fin then 2 else 0) else 1 := by
  have hphase := h.phase_eq
  have herr : s.errcode = 0 := h.inv.errcode_eq_zero (by rw [hphase, phaseWithLeft]; split_ifs <;> nofun)
  rw [busRead, statusWord_eq, herr, hphase, phaseWithLeft]
  split_ifs <;> decide

/-- An accepted BLOCK or FINAL leaves 66 internal steps for each block it queues. -/
theorem workLeft_of_accepted {s t : State} {i : Instr} (hs : s.Inv) (hp : s.phase = .ready) (hi : i ≠ .init)
    (h : exec i s = .next t) (ht : t.phase ≠ .error) : WorkLeft (i ≠ .block) (66 * t.q.length) t := by
  have hinv := exec_inv hs h
  obtain ⟨hfin, hphase, hcstate⟩ : t.fin = decide (i ≠ .block) ∧ t.phase = .busy ∧ t.cstate = .idle := by
    cases exec_cases h with
    | start => exact absurd rfl hi
    | ignored _ _ herr => exact absurd herr ht
    | raised => exact absurd rfl ht
    | block => exact ⟨rfl, rfl, hs.cstate_ready hp⟩
    | final nb => exact ⟨rfl, rfl, hs.cstate_ready hp⟩
  have hq : t.q ≠ [] := by simpa [hcstate] using hinv.busy_iff.1 hphase
  exact ⟨hinv, hfin, by simp [State.stepsLeft, hcstate, CState.stepsLeft], by simp [phaseWithLeft, hq, hphase]⟩

/-- Settles O44: n turns take n of the 66 internal steps a block, and STATUS follows what is left. -/
theorem statusShowsAcceptedWork : Obligations.StatusShowsAcceptedWork := by
  intro s t i hs hp hi h ht n
  obtain ⟨u, hu, hwork⟩ := (workLeft_of_accepted hs hp hi h ht).internalTurns n
  refine ⟨u, hu, ?_⟩
  rw [hwork.status]
  by_cases hn : n < 66 * t.q.length
  · rw [if_neg (by omega), if_pos hn]
  · rw [if_pos (by omega), if_neg hn]
    by_cases hb : i = .block <;> simp [hb]

end Sys2Proof.Machine
end

section
/-! The encoding of commands: decoder and encoder are inverse, the rows of the decode table, the 66 legal words
(O2, O3, O4, O1). -/

namespace Sys2Proof.Machine

/-! ### Decoding and encoding -/

/-- A word with the fields of an instruction decodes to it (30 R75). -/
theorem decode_of_fieldsOf {v : Word} {i : Instr} (h : fieldsOf v = i.fields) : decode v = .ok i := by
  cases i <;> simp [decode, h, Instr.fields]

theorem decode_encode (i : Instr) : decode (encode i) = .ok i := by
  obtain ⟨-, hfields, -⟩ := encoding_statement i
  exact decode_of_fieldsOf hfields

theorem decode_eq_ok_iff {v : Word} {i : Instr} : decode v = .ok i ↔ v = encode i :=
  ⟨eq_encode_of_decode, fun h => h ▸ decode_encode i⟩

theorem encode_injective : Function.Injective encode := by
  intro i j h
  simpa [h, decode_encode] using (decode_encode i).symm

/-- A table word of 32 bits is the command word itself. -/
theorem decodeTableWord_toNat (v : Word) : decodeTableWord 32 v.toNat = (decode v).toOption := by
  have hv := v.isLt
  simp [decodeTableWord, Nat.mod_eq_of_lt hv, hv]

/-- Settles O2: a word is decoded by its fields, and they are those the encoder wrote. -/
theorem decodeAndEncodeAreInverse : Obligations.DecodeAndEncodeAreInverse := by
  refine ⟨fun i => ⟨decode_encode i, ?_⟩, fun v i h => (eq_encode_of_decode h).symm⟩
  rw [decodeTableWord_toNat, decode_encode]
  rfl

/-! ### The decode table -/

/-- The row of an instruction in the decode table (30 R75). -/
def rowOf : Instr → TableRow
  | .init => ⟨"INIT", 0x00000001, 0xFFFFFFFF⟩
  | .block => ⟨"BLOCK", 0x00000002, 0xFFFFFFFF⟩
  | .final _ => ⟨"FINAL", 0x00000003, 0xFFFFFC0F⟩

theorem rowOf_mem_decodeTable (i : Instr) : rowOf i ∈ decodeTable := by
  cases i <;> simp [rowOf, decodeTable]

theorem rowOf_mnemonic (i : Instr) : (rowOf i).mnemonic = i.mnemonic := by
  cases i <;> rfl

theorem rowOf_matches_encode (i : Instr) : (rowOf i).matches (encode i) = true := by
  cases i with
  | init | block => rfl
  | final nb => revert nb; decide

/-- A field that the mask keeps whole is read off the masked word. -/
theorem extractLsb'_of_and_eq {v m w : Word} (h : v &&& m = w) (start len : Nat)
    (hm : m.extractLsb' start len = BitVec.allOnes len) : v.extractLsb' start len = w.extractLsb' start len := by
  rw [← h, BitVec.extractLsb'_and, hm, BitVec.and_allOnes]

/-- FINAL's mask keeps OP and RSV and drops NBYTES. -/
theorem fieldsOf_of_matches_final {v : Word} {nb : BitVec 6} (h : (rowOf (.final nb)).matches v = true) :
    fieldsOf v = (Instr.final (v.extractLsb' 4 6)).fields := by
  have h : v &&& 0xFFFFFC0F = 0x00000003 := beq_iff_eq.1 h
  have hop : v.extractLsb' 0 4 = 3 := extractLsb'_of_and_eq h 0 4 rfl
  have hrsv : v.extractLsb' 10 22 = 0 := extractLsb'_of_and_eq h 10 22 rfl
  simp [fieldsOf, Instr.fields, hop, hrsv]

/-- A row of the table matches the words of its instructions only. -/
theorem exists_encode_of_matches {r : TableRow} (hr : r ∈ decodeTable) {v : Word} (h : r.matches v = true) :
    ∃ i, v = encode i ∧ r = rowOf i := by
  simp only [decodeTable, List.mem_cons, List.not_mem_nil, or_false] at hr
  obtain rfl | rfl | rfl := hr
  · exact ⟨.init, BitVec.and_allOnes.symm.trans (beq_iff_eq.1 h), rfl⟩
  · exact ⟨.block, BitVec.and_allOnes.symm.trans (beq_iff_eq.1 h), rfl⟩
  · exact ⟨.final (v.extractLsb' 4 6),
      decode_eq_ok_iff.1 (decode_of_fieldsOf (fieldsOf_of_matches_final (nb := 0) h)), rfl⟩

/-- Settles O3: a row matches exactly the words of its instructions, and a word has one instruction. -/
theorem decoderAgreesWithTheTable : Obligations.DecoderAgreesWithTheTable := by
  have hrow {v : Word} {i : Instr} (h : decode v = .ok i) : (rowOf i).matches v = true :=
    eq_encode_of_decode h ▸ rowOf_matches_encode i
  refine ⟨fun v => ⟨?_, ?_⟩, fun v i h => ⟨rowOf i, rowOf_mem_decodeTable i, hrow h, rowOf_mnemonic i⟩,
    fun v nb h => ?_, fun v r hr r' hr' h h' => ?_⟩
  · rintro ⟨i, h⟩
    exact ⟨rowOf i, rowOf_mem_decodeTable i, hrow h⟩
  · rintro ⟨r, hr, h⟩
    obtain ⟨i, hv, -⟩ := exists_encode_of_matches hr h
    exact ⟨i, decode_eq_ok_iff.2 hv⟩
  · exact (congrArg CmdFields.nbytes (fieldsOf_of_decode h)).symm
  · obtain ⟨i, rfl, rfl⟩ := exists_encode_of_matches hr h
    obtain ⟨j, hv, rfl⟩ := exists_encode_of_matches hr' h'
    rw [encode_injective hv]

/-! ### The legal words -/

theorem legalWord_iff (v : Word) : legalWord v = true ↔ ∃ i, decode v = .ok i := by
  refine ⟨fun h => ?_, fun ⟨i, h⟩ => legalWord_of_decode h⟩
  simp only [legalWord, Bool.and_eq_true, Bool.or_eq_true, beq_iff_eq] at h
  obtain ⟨hrsv, (⟨hop, hnb⟩ | ⟨hop, hnb⟩) | hop⟩ := h
  · exact ⟨.init, decode_of_fieldsOf (by simp [fieldsOf, Instr.fields, hrsv, hop, hnb])⟩
  · exact ⟨.block, decode_of_fieldsOf (by simp [fieldsOf, Instr.fields, hrsv, hop, hnb])⟩
  · exact ⟨.final (v.extractLsb' 4 6), decode_of_fieldsOf (by simp [fieldsOf, Instr.fields, hrsv, hop])⟩

/-- INIT, BLOCK and the 64 FINALs (30 R71, R72). -/
def allInstrs : List Instr := .init :: .block :: (List.finRange 64).map fun n => .final (.ofFin n)

theorem mem_allInstrs (i : Instr) : i ∈ allInstrs := by
  cases i with
  | init | block => simp [allInstrs]
  | final nb => simp [allInstrs]

theorem allInstrs_nodup : allInstrs.Nodup := by
  have hfinal : Function.Injective fun n : Fin 64 => Instr.final (.ofFin n) := by
    intro m n h
    simpa using h
  simp [allInstrs, (List.nodup_finRange 64).map hfinal]

/-- Settles O4: the legal words are the words of the 66 instructions. -/
theorem exactlySixtySixWordsAreLegal : Obligations.ExactlySixtySixWordsAreLegal := by
  refine ⟨legalWord_iff, allInstrs.map encode, allInstrs_nodup.map encode_injective, by simp [allInstrs], fun v => ?_⟩
  simp only [List.mem_map, mem_allInstrs, true_and, legalWord_iff, decode_eq_ok_iff, @eq_comm _ v]

/-- Settles O1: the words are those of the encoder, and the others are not legal. -/
theorem decodesTheCommandWords : Obligations.DecodesTheCommandWords := by
  have hillegal : ∀ v ∈ ([0x0, 0x4, 0xF, 0x11, 0x12, 0x403, 0x80000001] : List Word), legalWord v = false := by
    simp [legalWord]
  refine ⟨decode_encode .init, decode_encode .block, decode_encode (.final 0), decode_encode (.final 3),
    decode_encode (.final 56), decode_encode (.final 63), fun v hv i h => ?_⟩
  simpa [hillegal v hv] using legalWord_of_decode h

end Sys2Proof.Machine
end

section
/-! Host programs: runs line by line, the host-side branch, and the expansion of `ldata` (O54, O55). -/

namespace Sys2Proof.Machine

/-! ### Lines of a host program -/

theorem core_run_succ {s t : State} (h : step s = .next t) (n : Nat) :
    Sys2Proof.core.run (n + 1) s = Sys2Proof.core.run n t := by
  have h : Sys2Proof.core.step s = .next t := h
  simp only [Host.Core.run, h]

theorem hostLine_wr_data (i : Fin 16) (v : Word) (s : State) :
    hostLine (.wr (Access.reg (.data i)) v) s = .next (writeData i v s) := by
  simp [hostLine, accessWrite, busWrite]

theorem jump_of_linesAfter {l : HostName} {s : State} {ls : List HostLine} (h : linesAfter l s.host.prog = some ls) :
    jump l s = .next (setLines ls s) := by
  simp [jump, h]

/-- A branch on a name that is given and a bit that a word has (30 R77). -/
theorem hostLine_ifBit {s : State} {x : HostName} {k : Nat} {v : Word} (hx : s.host.named.lookup x = some v) (hk : k < 32)
    (b : Bool) (l : HostName) :
    hostLine (.ifBit x k b l) s = if v.getLsbD k = b then jump l s else .next s := by
  simp [hostLine, branch, hx, hk]

theorem step_ifBit {s : State} {x l : HostName} {k : Nat} {b : Bool} {v : Word} {rest : List HostLine}
    (ht : nextTurn s = .host) (hl : s.host.lines = .ifBit x k b l :: rest) (hx : s.host.named.lookup x = some v)
    (hk : k < 32) :
    step s = if v.getLsbD k = b then jump l (setLines rest (dropTurn s)) else .next (setLines rest (dropTurn s)) := by
  rw [step_hostLine ht hl, hostLine_ifBit (s := setLines rest (dropTurn s)) hx hk]

/-- Settles O54, by whether the bit is as asked. -/
theorem hostBranchFollowsTheNamedBit : Obligations.HostBranchFollowsTheNamedBit := by
  intro s x k b l v ls hx hk hl
  rw [hostLine_ifBit hx hk]
  split
  · exact jump_of_linesAfter hl
  · rfl

/-! ### The lines of `ldata` -/

/-- Writes of DATA registers, one line each. -/
def dataLines (f : Fin 16 → Word) (is : List (Fin 16)) : List HostLine := is.map fun i => .wr (Access.reg (.data i)) (f i)

/-- The staging buffer after those writes. -/
def writeWords (f : Fin 16 → Word) (is : List (Fin 16)) (d : Vector Word 16) : Vector Word 16 :=
  is.foldl (fun (d : Vector Word 16) (i : Fin 16) => d.set i (f i)) d

theorem writeWords_getElem (f : Fin 16 → Word) (is : List (Fin 16)) (d : Vector Word 16) (j : Fin 16) :
    (writeWords f is d)[j] = if j ∈ is then f j else d[j] := by
  induction is generalizing d with
  | nil => rfl
  | cons i is ih =>
    rw [writeWords, List.foldl_cons, ← writeWords, ih]
    by_cases hi : j = i
    · simp [hi]
    · have hne : i.val ≠ j.val := fun h => hi (Fin.ext h.symm)
      simp [hi, hne]

/-- Writing all sixteen registers leaves nothing of the old buffer. -/
theorem writeWords_finRange (f : Fin 16 → Word) (d : Vector Word 16) :
    writeWords f (List.finRange 16) d = Vector.ofFn f := by
  apply Vector.ext
  intro j hj
  simpa using writeWords_getElem f (List.finRange 16) d ⟨j, hj⟩

/-- One host turn for each write, and nothing changes but DATA, the host's position and the turns taken. -/
theorem run_dataLines (f : Fin 16 → Word) (is : List (Fin 16)) (rest : List HostLine) (ts : List Turn) (s : State)
    (hl : s.host.lines = dataLines f is ++ rest) (hs : s.sched = List.replicate is.length .host ++ ts) :
    Sys2Proof.core.run is.length s =
      .next ({ s with data := writeWords f is s.data, host := { s.host with lines := rest }, sched := ts } : State) := by
  induction is generalizing s with
  | nil =>
    obtain rfl : s.host.lines = rest := hl
    obtain rfl : s.sched = ts := hs
    rfl
  | cons i is ih =>
    have hstep : step s = .next (writeData i (f i) (setLines (dataLines f is ++ rest) (dropTurn s))) := by
      rw [step_hostLine (nextTurn_cons hs) hl, hostLine_wr_data]
      rfl
    rw [List.length_cons, core_run_succ hstep, ih _ rfl (by simp [hs, List.replicate_succ])]
    rfl

/-! ### The chunk that the written words make -/

theorem bytes_of_append (a b c d : Byte) :
    (a ++ b ++ c ++ d).extractLsb' 24 8 = a ∧ (a ++ b ++ c ++ d).extractLsb' 16 8 = b ∧
      (a ++ b ++ c ++ d).extractLsb' 8 8 = c ∧ (a ++ b ++ c ++ d).extractLsb' 0 8 = d := by
  simp (disch := decide) only [BitVec.extractLsb'_append_eq_of_le, BitVec.extractLsb'_append_eq_of_add_le, Nat.reduceSub,
    BitVec.extractLsb'_eq_self, and_self]

/-- Byte j of a word read big-endian is the j-th byte read (00 §5). -/
theorem be32_byte (S : List Byte) (k : Nat) (j : Fin 4) :
    (be32 S k).extractLsb' (24 - 8 * j.val) 8 = S.getD (k + j.val) 0 := by
  obtain ⟨h0, h1, h2, h3⟩ := bytes_of_append (S.getD k 0) (S.getD (k + 1) 0) (S.getD (k + 2) 0) (S.getD (k + 3) 0)
  fin_cases j
  · exact h0
  · exact h1
  · exact h2
  · exact h3

/-- The chunk of a block's words is the block (20 R55). -/
theorem chunk_words {B : Block} (hB : B.length = 64) : chunk (words B) = B := by
  apply List.ext_getElem?
  intro n
  by_cases hn : n < 64
  · have hbyte := serialize_getElem? (words B) ⟨n / 4, by omega⟩ ⟨n % 4, by omega⟩
    simp only [Nat.div_add_mod] at hbyte
    rw [chunk, hbyte, Fin.getElem_fin, words_getElem, be32_byte _ _ ⟨n % 4, by omega⟩, Nat.div_add_mod]
    simp [hB, hn]
  · rw [List.getElem?_eq_none (by simpa using hn), List.getElem?_eq_none (by omega)]

/-- Settles O55: the sixteen writes leave in DATA the words of S with its zeros. -/
theorem ldataFillsTheStagingBuffer : Obligations.LdataFillsTheStagingBuffer := by
  intro S s rest ts hS hl hs
  refine ⟨words (S ++ List.replicate (64 - S.length) 0), ?_, chunk_words (by simp; omega)⟩
  have hrun := run_dataLines (fun i => be32 (S ++ List.replicate (64 - S.length) 0) (4 * i.val)) (List.finRange 16)
    rest ts s hl hs
  rwa [writeWords_finRange] at hrun

end Sys2Proof.Machine
end

section
/-! The pseudo-instruction `wait`: where the host stands in it, what each turn does, and that it ends (O56). -/

namespace Sys2Proof.Machine

/-- An internal step leaves the host and the scheduler's list. -/
theorem InternalEffect.agents {s t : State} (h : InternalEffect s t) : t.host = s.host ∧ t.sched = s.sched := by
  cases h <;> exact ⟨rfl, rfl⟩

/-- STATUS bit 0 is the BUSY flag (10 R39). -/
theorem busRead_status_getLsbD_zero (s : State) : (busRead .status s).getLsbD 0 = decide (s.phase = .busy) := by
  rw [busRead, statusWord_getLsbD s (by decide)]
  cases s.phase <;> decide

section
variable (l x : HostName) (rest : List HostLine)

/-- The host stands in `wait` (30 R78), or at the lines after it; while the phase is not BUSY, `n` host turns are left. -/
inductive WaitAt (s : State) : Nat → Prop where
  /-- At the label. -/
  | label (hl : s.host.lines = psWait l x ++ rest) : WaitAt s 3
  /-- At the read of STATUS. -/
  | read (hl : s.host.lines = (psWait l x).tail ++ rest) : WaitAt s 2
  /-- At the branch, STATUS having read BUSY. -/
  | again (v : Word) (hl : s.host.lines = .ifBit x 0 true l :: rest) (hx : s.host.named.lookup x = some v)
      (hv : v.getLsbD 0 = true) : WaitAt s 3
  /-- At the branch, STATUS having read not BUSY. -/
  | leave (v : Word) (hl : s.host.lines = .ifBit x 0 true l :: rest) (hx : s.host.named.lookup x = some v)
      (hv : v.getLsbD 0 = false) (hp : s.phase ≠ .busy) : WaitAt s 1
  /-- After `wait`. -/
  | past (hl : s.host.lines = rest) (hp : s.phase ≠ .busy) : WaitAt s 0

/-- A property of the hardware that implies the invariant and that every turn of a `wait` keeps. -/
structure KeptWhileWaiting (P : State → Prop) : Prop where
  inv {s : State} : P s → s.Inv
  sameHw {s t : State} : P s → SameHw s t → P t
  internal {s t : State} : P s → s.phase = .busy → internalStep s = .next t → P t

theorem keptWhileWaiting_inv : KeptWhileWaiting State.Inv := ⟨id, fun hs h => h.inv hs, internalStep_inv⟩

/-- A run inside a `wait` of the program `prog`: the hardware meets P, no reset is to come, and a jump to the label goes on
with the lines after it. -/
structure Waiting (P : State → Prop) (prog : List HostLine) (n : Nat) (s : State) : Prop where
  hw : P s
  noReset : .reset ∉ s.sched
  prog_eq : s.host.prog = prog
  target : linesAfter l prog = some ((psWait l x).tail ++ rest)
  pos : WaitAt l x rest s n

variable {l x rest}
variable {P : State → Prop} {prog : List HostLine} {n : Nat} {s : State}

/-- A position does not depend on the hardware but for the phase. -/
theorem WaitAt.congr {t : State} (h : WaitAt l x rest s n) (hhost : t.host = s.host)
    (hphase : s.phase ≠ .busy → t.phase ≠ .busy) : WaitAt l x rest t n := by
  cases h with
  | label hl => exact .label (hhost ▸ hl)
  | read hl => exact .read (hhost ▸ hl)
  | again v hl hx hv => exact .again v (hhost ▸ hl) (hhost ▸ hx) hv
  | leave v hl hx hv hp => exact .leave v (hhost ▸ hl) (hhost ▸ hx) hv (hphase hp)
  | past hl hp => exact .past (hhost ▸ hl) (hphase hp)

/-- A turn in a `wait` leaves the host in it. -/
theorem Waiting.next {m : Nat} {t : State} (h : Waiting l x rest P prog n s) (hw : P t) (hs : t.sched = s.sched.tail)
    (hprog : t.host.prog = s.host.prog) (hpos : WaitAt l x rest t m) : Waiting l x rest P prog m t where
  hw := hw
  noReset hmem := h.noReset (List.mem_of_mem_tail (hs ▸ hmem))
  prog_eq := hprog.trans h.prog_eq
  target := h.target
  pos := hpos

/-- A host turn in a `wait` is one of those left, unless the phase is BUSY. -/
theorem Waiting.hostTurn (h : Waiting l x rest P prog (n + 1) s) (hP : KeptWhileWaiting P) (ht : nextTurn s = .host) :
    ∃ t m, step s = .next t ∧ t.sched = s.sched.tail ∧ t.phase = s.phase ∧ (s.phase ≠ .busy → m ≤ n) ∧
      Waiting l x rest P prog m t := by
  have hsame (ls : List HostLine) := sameHw_setLines_dropTurn ls s
  have hkeep {t : State} : SameHw s t → P t := hP.sameHw h.hw
  cases h.pos with
  | label hl =>
    exact ⟨_, 2, step_hostLine ht hl, rfl, rfl, fun _ => le_rfl, h.next (hkeep (hsame _)) rfl rfl (.read rfl)⟩
  | read hl =>
    have hstep := step_hostLine ht hl
    rw [hostLine_rdTo_reg, (hsame _).busRead_eq] at hstep
    have hbit := busRead_status_getLsbD_zero s
    by_cases hp : s.phase = .busy
    · refine ⟨_, 3, hstep, rfl, rfl, fun hne => absurd hp hne, h.next (hkeep (by simp [SameHw])) rfl rfl ?_⟩
      exact .again _ rfl List.lookup_cons_self (hbit.trans (decide_eq_true hp))
    · refine ⟨_, 1, hstep, rfl, rfl, fun _ => le_rfl, h.next (hkeep (by simp [SameHw])) rfl rfl ?_⟩
      exact .leave _ rfl List.lookup_cons_self (hbit.trans (decide_eq_false hp)) hp
  | again v hl hx hv =>
    have hstep := step_ifBit ht hl hx (by decide)
    rw [if_pos hv, jump_of_linesAfter (s := setLines rest (dropTurn s)) (h.prog_eq ▸ h.target)] at hstep
    exact ⟨_, 2, hstep, rfl, rfl, fun _ => le_rfl, h.next (hkeep (by simp [SameHw])) rfl rfl (.read rfl)⟩
  | leave v hl hx hv hp =>
    have hstep := step_ifBit ht hl hx (by decide)
    rw [if_neg (hv ▸ Bool.false_ne_true)] at hstep
    exact ⟨_, 0, hstep, rfl, rfl, fun _ => le_rfl, h.next (hkeep (hsame _)) rfl rfl (.past rfl hp)⟩

/-- A turn of the compressor in a `wait` is an internal step of the work, or does nothing. -/
theorem Waiting.internalTurn (h : Waiting l x rest P prog n s) (hP : KeptWhileWaiting P) (ht : nextTurn s = .internal) :
    ∃ t, step s = .next t ∧ t.sched = s.sched.tail ∧ (s.phase = .busy → t.stepsLeft + 1 = s.stepsLeft) ∧
      Waiting l x rest P prog n t := by
  have hstep : step s = Machine.internalTurn (dropTurn s) := by rw [step, ht, takeTurn]
  have hdrop : SameHw s (dropTurn s) := by simp [SameHw]
  by_cases hp : s.phase = .busy
  · obtain ⟨t, hinner⟩ := internalStep_completes (hdrop.inv (hP.inv h.hw)) hp
    have heff := internalStep_cases hinner
    obtain ⟨hhost, hsched⟩ := heff.agents
    refine ⟨t, hstep.trans ((internalTurn_busy (s := dropTurn s) hp).trans hinner), hsched, fun _ => heff.stepsLeft_succ, ?_⟩
    exact h.next (hP.internal (hP.sameHw h.hw hdrop) hp hinner) hsched (congrArg HostAgent.prog hhost)
      (h.pos.congr hhost fun hne => absurd hp hne)
  · exact ⟨_, hstep.trans (internalTurn_rest hp), rfl, fun hb => absurd hb hp,
      h.next (hP.sameHw h.hw hdrop) rfl rfl (h.pos.congr rfl id)⟩

/-! ### The end of a `wait` -/

/-- Some steps lead past the `wait`. -/
def WaitEnds (l x : HostName) (rest : List HostLine) (P : State → Prop) (prog : List HostLine) (s : State) : Prop :=
  ∃ k t, Sys2Proof.core.run k s = .next t ∧ Waiting l x rest P prog 0 t

theorem WaitEnds.of_step {t : State} (hstep : step s = .next t) (h : WaitEnds l x rest P prog t) :
    WaitEnds l x rest P prog s := by
  obtain ⟨k, u, hrun, hu⟩ := h
  exact ⟨k + 1, u, (core_run_succ hstep k).trans hrun, hu⟩

/-- With the list used up and the phase not BUSY, the host moves alone. -/
theorem Waiting.ends_of_not_busy (h : Waiting l x rest P prog n s) (hP : KeptWhileWaiting P) (hs : s.sched = [])
    (hp : s.phase ≠ .busy) : WaitEnds l x rest P prog s := by
  induction n using Nat.strong_induction_on generalizing s with
  | _ n ih =>
    cases n with
    | zero => exact ⟨0, s, rfl, h⟩
    | succ n =>
      obtain ⟨t, m, hstep, hsched, hphase, hm, ht⟩ := h.hostTurn hP (by rw [nextTurn_nil hs, fairTurn, if_neg hp])
      exact .of_step hstep (ih m (Nat.lt_succ_of_le (hm hp)) ht (by rw [hsched, hs]; rfl) (hphase ▸ hp))

/-- With the list used up, the compressor moves until its work is finished, then the host. -/
theorem Waiting.ends_of_nil (h : Waiting l x rest P prog n s) (hP : KeptWhileWaiting P) (hs : s.sched = []) :
    WaitEnds l x rest P prog s := by
  induction hleft : s.stepsLeft using Nat.strong_induction_on generalizing s with
  | _ k ih =>
    by_cases hp : s.phase = .busy
    · obtain ⟨t, hstep, hsched, hsucc, ht⟩ := h.internalTurn hP (by rw [nextTurn_nil hs, fairTurn, if_pos hp])
      have hlt := hsucc hp
      exact .of_step hstep (ih t.stepsLeft (by omega) ht (by rw [hsched, hs]; rfl) rfl)
    · exact h.ends_of_not_busy hP hs hp

/-- A `wait` ends under every list of host and compressor turns. -/
theorem Waiting.ends (h : Waiting l x rest P prog n s) (hP : KeptWhileWaiting P) : WaitEnds l x rest P prog s := by
  induction hs : s.sched generalizing s n with
  | nil => exact h.ends_of_nil hP hs
  | cons turn ts ih =>
    have hturn := nextTurn_cons hs
    cases turn with
    | host =>
      cases n with
      | zero => exact ⟨0, s, rfl, h⟩
      | succ n =>
        obtain ⟨t, m, hstep, hsched, -, -, ht⟩ := h.hostTurn hP hturn
        exact .of_step hstep (ih ht (by rw [hsched, hs]; rfl))
    | internal =>
      obtain ⟨t, hstep, hsched, -, ht⟩ := h.internalTurn hP hturn
      exact .of_step hstep (ih ht (by rw [hsched, hs]; rfl))
    | reset => exact absurd (hs ▸ List.mem_cons_self) h.noReset

end

/-- Settles O56: the invariant is kept by every turn of the `wait`, which ends. -/
theorem waitTerminates : Obligations.WaitTerminates := by
  intro s l x rest hs hreset hl htarget
  have hwait : Waiting l x rest State.Inv s.host.prog 3 s := ⟨hs, hreset, rfl, htarget, .label hl⟩
  obtain ⟨k, t, hrun, ht⟩ := hwait.ends keptWhileWaiting_inv
  cases ht.pos with
  | past hl hp => exact ⟨k, t, hrun, hl, hp⟩

end Sys2Proof.Machine
end

section
/-! The padder: the number of zeros, the padded bytes and their length, the blocks they are cut into, and what FINAL reads of
DATA (O10 to O13, O42). -/

namespace Sys2Proof.Machine

/-! ### The number of zeros -/

/-- The zeros fill up to the length field (40 R101). -/
theorem zeros_solves (L : Nat) : (L + 1 + zeros L) % 64 = 56 := by
  unfold zeros; omega

theorem zeros_unique {L z : Nat} (hz : z < 64) (h : (L + 1 + z) % 64 = 56) : z = zeros L := by
  have hlt := zeros_lt L
  have hsolves := zeros_solves L
  omega

/-- Settles O10: zeros(L) solves the congruence and is below 64; the rest follows from its uniqueness. -/
theorem zeroCountIsTheUniqueSolution : Obligations.ZeroCountIsTheUniqueSolution := by
  intro L
  have hsolves := zeros_solves L
  refine ⟨zeros_lt L, hsolves, by omega, fun _ hz h => zeros_unique hz h, fun h => ?_, fun h => ?_⟩
  · exact (zeros_unique (by omega) (by omega)).symm
  · exact (zeros_unique (by omega) (by omega)).symm

/-! ### The padded bytes -/

/-- The bytes that `pad` and `padTail` are about: the padding of T with the length field of L (40 R100, R107). -/
def padded (T : List Byte) (L : BitVec 64) : List Byte :=
  T ++ [0x80] ++ List.replicate (zeros T.length) 0 ++ lengthField L

theorem pad_eq_padded (M : List Byte) : pad M = padded M (BitVec.ofNat 64 M.length) := rfl

theorem padded_length (T : List Byte) (L : BitVec 64) : (padded T L).length = T.length + 1 + zeros T.length + 8 := by
  simp [padded]; omega

/-- How many blocks L bytes take once they are padded (40 R104). -/
def blockCount (L : Nat) : Nat := (L + 8) / 64 + 1

theorem blockCount_add (k n : Nat) : blockCount (64 * k + n) = k + blockCount n := by
  unfold blockCount; omega

theorem padded_length_eq_blockCount (T : List Byte) (L : BitVec 64) : (padded T L).length = 64 * blockCount T.length := by
  have hlt := zeros_lt T.length
  have hsolves := zeros_solves T.length
  rw [padded_length, blockCount]
  omega

/-- Whole blocks in front of the tail do not change how it is padded. -/
theorem padded_append {A : List Byte} {k : Nat} (hA : A.length = 64 * k) (T : List Byte) (L : BitVec 64) :
    padded (A ++ T) L = A ++ padded T L := by
  simp [padded, hA, zeros_add]

theorem beNat_be64bytes (v : BitVec 64) : beNat (be64bytes v) = v.toNat := by
  simp only [beNat, be64bytes, List.foldl_cons, List.foldl_nil, BitVec.extractLsb'_toNat, Nat.shiftRight_eq_div_pow]
  have := v.isLt
  omega

/-- Within the domain of 40 R105 the bit length does not wrap. -/
theorem beNat_lengthField {L : Nat} (hL : L ≤ 2 ^ 61 - 1) : beNat (lengthField (BitVec.ofNat 64 L)) = 8 * L := by
  rw [lengthField, beNat_be64bytes]
  simp; omega

/-! ### The blocks -/

theorem blocks_padded (T : List Byte) (L : BitVec 64) : blocks (padded T L) = blocksOf (blockCount T.length) (padded T L) := by
  rw [blocks, padded_length_eq_blockCount, Config.blockBytes, Nat.mul_div_cancel_left _ (by decide)]

/-- pad_tail cuts the padded tail into its blocks (40 R107). -/
theorem padTail_eq_blocksOf {T : List Byte} (hT : T.length ≤ 63) (L : BitVec 64) :
    padTail T L = blocksOf (blockCount T.length) (padded T L) := by
  unfold padTail
  split
  · have hcount : blockCount T.length = 1 := by unfold blockCount; omega
    rw [hcount]; rfl
  · have hcount : blockCount T.length = 2 := by unfold blockCount; omega
    rw [hcount]; rfl

theorem flatten_blocksOf {n : Nat} {bs : List Byte} (h : bs.length = 64 * n) : (blocksOf n bs).flatten = bs := by
  induction n generalizing bs with
  | zero => exact (List.length_eq_zero_iff.1 h).symm
  | succ n ih =>
    rw [blocksOf, List.flatten_cons, Config.blockBytes, ih (by simp; omega), List.take_append_drop]

/-- The first k blocks are those of the first 64k bytes. -/
theorem blocksOf_take {k : Nat} {bs : List Byte} (h : 64 * k ≤ bs.length) : blocksOf k (bs.take (64 * k)) = blocksOf k bs := by
  have hcut := blocksOf_append k 0 (bs.take (64 * k)) (bs.drop (64 * k)) (by simp; omega)
  rw [List.take_append_drop] at hcut
  simpa [blocksOf] using hcut.symm

/-- Settles O11: the layout is the definition's; the length is that of whole blocks, of which the last has room for it. -/
theorem paddedMessageLayout : Obligations.PaddedMessageLayout := by
  intro M hM
  have hlen := padded_length_eq_blockCount M (BitVec.ofNat 64 M.length)
  refine ⟨⟨lengthField (BitVec.ofNat 64 M.length), rfl, rfl, beNat_lengthField hM⟩, padded_length _ _, hlen, fun m hm => ?_, ?_⟩
  · rw [pad_eq_padded, hlen, blockCount]
    omega
  · rw [pad_eq_padded, blocks_padded, blocksOf_length, blockCount]

/-- Settles O12: the blocks are those of the padded tail. -/
theorem tailPaddingMakesWholeBlocks : Obligations.TailPaddingMakesWholeBlocks := by
  intro T L hT
  have hzeros : zeros T.length = (119 - T.length) % 64 := (zeros_unique (by omega) (by omega)).symm
  obtain ⟨-, -, hwhole⟩ := padTail_whole hT L
  have hcut := padTail_eq_blocksOf hT L
  refine ⟨fun h => ?_, fun h => ?_, hwhole, ?_⟩
  · rw [hcut, blocksOf_length, blockCount]; omega
  · rw [hcut, blocksOf_length, blockCount]; omega
  · rw [hcut, flatten_blocksOf (padded_length_eq_blockCount T L), padded, hzeros, lengthField]

/-- Settles O13: the padded message is its whole chunks and the padded tail, cut at the boundary between them. -/
theorem hardwareBlocksAreThePaddedBlocks : Obligations.HardwareBlocksAreThePaddedBlocks := by
  intro M k nb hM hnb _
  have hchunks : (M.take (64 * k)).length = 64 * k := by simp; omega
  have htail : (M.drop (64 * k)).length = nb := by simp; omega
  have hcount : blockCount M.length = k + blockCount nb := by rw [hM, blockCount_add]
  have hpadded := padded_append hchunks (M.drop (64 * k)) (BitVec.ofNat 64 M.length)
  rw [List.take_append_drop] at hpadded
  rw [pad_eq_padded, blocks_padded, hcount, hpadded, blocksOf_append _ _ _ _ hchunks, blocksOf_take (by omega),
    padTail_eq_blocksOf (by omega), htail]

/-! ### What FINAL reads of DATA -/

/-- The tail is the first nb bytes of the chunk (30 R72). -/
theorem tail_congr {d e : Vector Word 16} {nb : BitVec 6} (h : ∀ i < nb.toNat, (chunk d)[i]? = (chunk e)[i]?) :
    tail d nb = tail e nb := by
  apply List.ext_getElem?
  intro i
  by_cases hi : i < nb.toNat
  · simpa [tail, nbytesOf, List.getElem?_take, hi] using h i hi
  · simp [tail, nbytesOf, hi]

/-- The state with another staging buffer. -/
def withData (d : Vector Word 16) (s : State) : State := { s with data := d }

theorem finalInReady_withData {s : State} {d : Vector Word 16} {nb : BitVec 6} (h : tail d nb = tail s.data nb) :
    finalInReady nb (withData d s) = withData d (finalInReady nb s) := by
  simp only [finalInReady, withData, h]
  rfl

/-- A command for which DATA makes no difference in READY has none in any phase. -/
theorem inReady_withData {s : State} {d : Vector Word 16} {run : State → State}
    (hrun : run (withData d s) = withData d (run s)) : inReady (withData d s) run = withData d (inReady s run) := by
  cases hp : s.phase with
  | ready => rw [inReady_ready hp, inReady_ready (s := withData d s) hp, hrun]
  | busy => rw [inReady_busy hp, inReady_busy (s := withData d s) hp]; rfl
  | done => rw [inReady_done hp, inReady_done (s := withData d s) hp]; rfl
  | error => rw [inReady_error hp, inReady_error (s := withData d s) hp]

/-- Settles O42: FINAL reads of DATA only the tail. -/
theorem finalIgnoresBytesPastTheTail : Obligations.FinalIgnoresBytesPastTheTail := by
  intro s d nb h
  have hfinal := inReady_withData (finalInReady_withData (tail_congr h))
  exact ⟨inReady s (finalInReady nb), rfl, congrArg Host.Outcome.next hfinal⟩

end Sys2Proof.Machine
end

section
/-! The bit primitives of the compressor, bit by bit (O7, O9, O8). -/

namespace Sys2Proof.Machine

/-! ### Rotations and shifts -/

theorem rotr_toNat (x : Word) (n : Nat) (h : 1 ≤ n ∧ n ≤ 31) :
    (rotr x n h).toNat = (x.toNat / 2 ^ n ||| x.toNat * 2 ^ (32 - n) % 2 ^ 32) := by
  simp only [rotr, BitVec.toNat_or, BitVec.toNat_ushiftRight, BitVec.toNat_shiftLeft, Nat.shiftRight_eq_div_pow,
    Nat.shiftLeft_eq]

/-- The formula of 41 R121 is the circular rotation of the library. -/
theorem rotr_eq_rotateRight (x : Word) (n : Nat) (h : 1 ≤ n ∧ n ≤ 31) : rotr x n h = x.rotateRight n := by
  rw [BitVec.rotateRight_def, Nat.mod_eq_of_lt (by omega), rotr]

theorem rotr_getLsbD (x : Word) (n : Nat) (h : 1 ≤ n ∧ n ≤ 31) {i : Nat} (hi : i < 32) :
    (rotr x n h).getLsbD i = x.getLsbD ((i + n) % 32) := by
  rw [rotr_eq_rotateRight, BitVec.getLsbD_rotateRight, Nat.mod_eq_of_lt (by omega)]
  by_cases hwrap : i < 32 - n
  · rw [decide_eq_true hwrap, cond_true, show (i + n) % 32 = n + i by omega]
  · rw [decide_eq_false hwrap, cond_false, decide_eq_true hi, Bool.true_and, show (i + n) % 32 = i - (32 - n) by omega]

theorem shr_toNat (x : Word) (n : Nat) (h : 1 ≤ n ∧ n ≤ 31) : (shr x n h).toNat = x.toNat / 2 ^ n := by
  rw [shr, BitVec.toNat_ushiftRight, Nat.shiftRight_eq_div_pow]

/-- The bits shifted in are 0 (41 R122). -/
theorem shr_getLsbD (x : Word) (n : Nat) (h : 1 ≤ n ∧ n ≤ 31) (i : Nat) :
    (shr x n h).getLsbD i = (decide (i + n < 32) && x.getLsbD (i + n)) := by
  rw [shr, BitVec.getLsbD_ushiftRight, Nat.add_comm n i]
  by_cases hin : i + n < 32
  · rw [decide_eq_true hin, Bool.true_and]
  · rw [decide_eq_false hin, Bool.false_and, BitVec.getLsbD_of_ge _ _ (by omega)]

/-- Settles O7, function by function. -/
theorem rotationsAreCircularAndShiftsLogical : Obligations.RotationsAreCircularAndShiftsLogical := fun x n h =>
  ⟨rotr_toNat x n h, fun _ => rotr_getLsbD x n h, shr_toNat x n h⟩

/-- Settles O9: the three words of each function, each read at bit i. -/
theorem sigmaFunctionsBitByBit : Obligations.SigmaFunctionsBitByBit := by
  intro x i hi
  simp only [bigSigma0, bigSigma1, smallSigma0, smallSigma1, BitVec.getLsbD_xor, rotr_getLsbD _ _ _ hi, shr_getLsbD,
    and_self]

/-! ### Choice and majority -/

theorem ch_getLsbD (e f g : Word) {i : Nat} (hi : i < 32) :
    (ch e f g).getLsbD i = if e.getLsbD i = true then f.getLsbD i else g.getLsbD i := by
  simp only [ch, BitVec.getLsbD_xor, BitVec.getLsbD_and, BitVec.getLsbD_not, hi, decide_true, Bool.true_and]
  cases e.getLsbD i <;> simp

theorem maj_getLsbD (a b c : Word) (i : Nat) :
    (maj a b c).getLsbD i = decide (2 ≤ (a.getLsbD i).toNat + (b.getLsbD i).toNat + (c.getLsbD i).toNat) := by
  simp only [maj, BitVec.getLsbD_xor, BitVec.getLsbD_and]
  generalize a.getLsbD i = p, b.getLsbD i = q, c.getLsbD i = r
  revert p q r
  decide

/-- Settles O8, each function bit by bit. -/
theorem chooseSelectsAndMajorityVotes : Obligations.ChooseSelectsAndMajorityVotes :=
  ⟨fun e f g _ => ch_getLsbD e f g, fun a b c i _ => maj_getLsbD a b c i⟩

end Sys2Proof.Machine
end

section
/-! The message schedule and the compression of a block as functions (O15, O20, O23). -/

namespace Sys2Proof.Machine

/-! ### The schedule -/

/-- W holds the sixteen words, and its entries below n obey the recurrence of 41 R130. -/
structure ScheduledTo (w : Vector Word 16) (n : Nat) (W : Vector Word 64) : Prop where
  first_words : ∀ (j : Nat) (h : j < 16), W[j] = w[j]
  recurrence : ∀ (j : Nat) (h : j < 64), 16 ≤ j → j < n →
    W[j] = W[j - 16] + smallSigma0 W[j - 15] + W[j - 7] + smallSigma1 W[j - 2]

theorem schedStep_getElem_of_lt (W : Vector Word 64) {j i : Nat} (hij : i < j) (hi : i < 64) :
    (schedStep W j)[i] = W[i] := by
  rw [schedStep_getElem W j i hi, if_neg (by omega)]

theorem schedStep_getElem_self (W : Vector Word 64) {j : Nat} (h : j < 64) (h16 : 16 ≤ j) :
    (schedStep W j)[j] = W[j - 16] + smallSigma0 W[j - 15] + W[j - 7] + smallSigma1 W[j - 2] := by
  rw [schedStep_getElem W j j h, if_pos rfl]
  simp (disch := omega) only [vector_getD]

/-- A schedule step reads and leaves the entries before it, so the entry it writes obeys the recurrence as they do. -/
theorem ScheduledTo.succ {w : Vector Word 16} {n : Nat} {W : Vector Word 64} (h : ScheduledTo w n W)
    (h16 : 16 ≤ n) : ScheduledTo w (n + 1) (schedStep W n) where
  first_words j hj := (schedStep_getElem_of_lt W (by omega) _).trans (h.first_words j hj)
  recurrence j hj h16j hjn := by
    obtain hlt | rfl : j < n ∨ j = n := by omega
    · simp (disch := omega) only [schedStep_getElem_of_lt]
      exact h.recurrence j hj h16j hlt
    · simp (disch := omega) only [schedStep_getElem_self, schedStep_getElem_of_lt]

theorem scheduledTo_foldl (w : Vector Word 16) (n : Nat) :
    ScheduledTo w (16 + n) ((List.range' 16 n).foldl schedStep (Vector.ofFn fun i : Fin 64 => w.getD i.val 0)) := by
  induction n with
  | zero => exact ⟨fun j hj => by simp [vector_getD, hj], fun j _ _ _ => by omega⟩
  | succ n ih =>
    rw [List.range'_1_concat, List.foldl_append]
    exact ih.succ (by omega)

/-- Settles O15: the 48 schedule steps reach every entry. -/
theorem scheduleObeysItsRecurrence : Obligations.ScheduleObeysItsRecurrence := by
  intro w
  obtain ⟨hwords, hrec⟩ : ScheduledTo w 64 (sched w) := scheduledTo_foldl w 48
  exact ⟨hwords, fun j h h16 => hrec j h h16 h⟩

theorem sched_words_getElem (B : Block) (i : Nat) (h : i < 16) : (sched (words B))[i] = be32 B (4 * i) :=
  ((scheduleObeysItsRecurrence (words B)).1 i h).trans (words_getElem B i h)

/-! ### Compression -/

/-- The state fold, word by word (41 R133). -/
theorem foldHash_eq (X : Vector Word 8) (r : Regs) : foldHash X r =
    #v[X[0] + r.a, X[1] + r.b, X[2] + r.c, X[3] + r.d, X[4] + r.e, X[5] + r.f, X[6] + r.g, X[7] + r.h] := by
  ext i hi
  rw [foldHash_getElem X r i hi]
  interval_cases i <;> rfl

/-- Settles O20: r_t is the state after t rounds over the schedule of B. -/
theorem compressRunsAllSixtyFourRounds : Obligations.CompressRunsAllSixtyFourRounds := by
  intro X B
  exact ⟨sched (words B), fun t => rounds t.val (sched (words B)) (Regs.ofVec X), sched_words_getElem B,
    (scheduleObeysItsRecurrence (words B)).2, rfl, fun t => rounds_succ t.val t.isLt _ _, foldHash_eq X _⟩

/-! ### The digest -/

theorem compressAll_concat (X : Vector Word 8) (bs : List Block) (B : Block) :
    compressAll X (bs ++ [B]) = compress (compressAll X bs) B := List.foldl_concat ..

/-- Settles O23: the digest is the serialized chaining value. -/
theorem digestHasThirtyTwoBytes : Obligations.DigestHasThirtyTwoBytes :=
  ⟨fun _ => ⟨serialize_length _, _, rfl, serialize_getElem? _⟩, compressAll_concat⟩

end Sys2Proof.Machine
end

section
/-! The internal steps LOAD, RND(t) and FOLD, and the 66 of them that compress a block (O16 to O19, O21, O22). -/

namespace Sys2Proof.Machine

/-! ### One internal step -/

section
variable {s : State} (hp : s.phase = .busy)
include hp

theorem internalTurn_load {B : Block} {rest : List Block} (hc : s.cstate = .idle) (hq : s.q = B :: rest)
    (hB : B.length = 64) : internalTurn s = .next (loaded B rest s) := by
  rw [internalTurn_busy hp, internalStep, hc]
  exact load_cons hq hB

theorem internalTurn_rnd {t : Fin 64} (hc : s.cstate = .rnd t) : internalTurn s = .next (rnd t s) := by
  rw [internalTurn_busy hp, internalStep, hc]

theorem internalTurn_fold (hc : s.cstate = .fold) : internalTurn s = .next (fold s) := by
  rw [internalTurn_busy hp, internalStep, hc]

end

/-- The internal step due once n rounds are done: RND(n), or FOLD after all 64 (41 R140). -/
def roundDue (n : Nat) : CState := if h : n < 64 then .rnd ⟨n, h⟩ else .fold

theorem roundDue_of_lt {n : Nat} (h : n < 64) : roundDue n = .rnd ⟨n, h⟩ := dif_pos h

theorem roundDue_all : roundDue 64 = .fold := dif_neg (lt_irrefl 64)

theorem afterRound_eq_roundDue (t : Fin 64) : afterRound t = roundDue (t.val + 1) := rfl

/-- Settles O16: W is the schedule of the block's words (O15). -/
theorem loadStepFillsTheSchedule : Obligations.LoadStepFillsTheSchedule := fun _ B _ hp hc hq hB =>
  ⟨sched (words B), internalTurn_load hp hc hq hB, sched_words_getElem B, (scheduleObeysItsRecurrence (words B)).2⟩

/-- Settles O17: the turn is RND(t), and the step due after it is that after t + 1 rounds. -/
theorem roundStepMixesTheRegisters : Obligations.RoundStepMixesTheRegisters := by
  intro s t hp hc
  refine ⟨afterRound t, internalTurn_rnd hp hc, fun h => ?_, fun h => ?_⟩
  · rw [afterRound_eq_roundDue, roundDue_of_lt]
  · rw [afterRound_eq_roundDue, h, roundDue_all]

/-- Settles O18: H is folded word by word, and the phase goes by Q and FIN. -/
theorem foldStepUpdatesTheHash : Obligations.FoldStepUpdatesTheHash := by
  intro s hp hc
  refine ⟨foldHash s.h s.reg, phaseAfterFold s, internalTurn_fold hp hc, ?_⟩
  rw [foldHash_eq]
  refine ⟨rfl, rfl, rfl, rfl, rfl, rfl, rfl, rfl, fun hq hf => ?_, fun hq hf => ?_, fun hq => ?_⟩
  · rw [phaseAfterFold_nil hq, hf]; rfl
  · rw [phaseAfterFold_nil hq, hf]; rfl
  · rw [phaseAfterFold_ne_nil hq, hp]

/-- While BUSY and IDLE a block waits, and it is whole (10 R32, 40 R109). -/
theorem State.Inv.queue_of_busy_idle {s : State} (hs : s.Inv) (hp : s.phase = .busy) (hc : s.cstate = .idle) :
    ∃ B rest, s.q = B :: rest ∧ B.length = 64 := by
  have hne : s.q ≠ [] := by simpa [hc] using hs.busy_iff.1 hp
  obtain ⟨B, rest, hq⟩ := List.exists_cons_of_ne_nil hne
  exact ⟨B, rest, hq, hs.whole B (by simp [hq])⟩

/-- Settles O19: the state changes because each internal step leaves one step less. -/
theorem internalStepCompletesExactlyWhenBusy : Obligations.InternalStepCompletesExactlyWhenBusy := by
  intro s hs
  refine ⟨fun hp => ⟨?_, fun hc => ?_⟩, internalTurn_rest⟩
  · obtain ⟨t, ht⟩ := internalStep_completes hs hp
    have hless := (internalStep_cases ht).stepsLeft_succ
    refine ⟨t, (internalTurn_busy hp).trans ht, ?_⟩
    rintro rfl
    omega
  · obtain ⟨B, rest, hq, -⟩ := hs.queue_of_busy_idle hp hc
    simp [hq]

/-! ### The sixty-six steps of a block -/

/-- The state after LOAD of the block B and n rounds. -/
def afterRounds (B : Block) (rest : List Block) (s : State) (n : Nat) : State :=
  { loaded B rest s with reg := rounds n (sched (words B)) (Regs.ofVec s.h), cstate := roundDue n }

theorem rnd_afterRounds (B : Block) (rest : List Block) (s : State) {n : Nat} (h : n < 64) :
    rnd ⟨n, h⟩ (afterRounds B rest s n) = afterRounds B rest s (n + 1) := by
  rw [afterRounds, afterRounds, rounds_succ n h]
  rfl

theorem afterRounds_busy (B : Block) (rest : List Block) {s : State} (hp : s.phase = .busy) (n : Nat) :
    (afterRounds B rest s n).phase = .busy := hp

theorem afterRounds_cstate (B : Block) (rest : List Block) (s : State) (n : Nat) :
    (afterRounds B rest s n).cstate = roundDue n := rfl

theorem afterRounds_cstate_all (B : Block) (rest : List Block) (s : State) : (afterRounds B rest s 64).cstate = .fold :=
  (afterRounds_cstate B rest s 64).trans roundDue_all

/-- What the FOLD after n rounds leaves, field by field. -/
theorem fold_afterRounds (B : Block) (rest : List Block) {s : State} (hp : s.phase = .busy) (n : Nat) :
    let t := fold (afterRounds B rest s n)
    t.h = foldHash s.h (rounds n (sched (words B)) (Regs.ofVec s.h)) ∧ t.q = rest ∧ t.cstate = .idle ∧ t.len = s.len ∧
      t.fin = s.fin ∧ t.errcode = s.errcode ∧ t.data = s.data ∧ t.host = s.host ∧ t.sched = s.sched ∧
      t.phase = if rest = [] then (if s.fin then .done else .ready) else .busy :=
  ⟨rfl, rfl, rfl, rfl, rfl, rfl, rfl, rfl, rfl, hp ▸ rfl⟩

theorem internalTurns_concat {m : Nat} {s t u : State} (hm : internalTurns m s = .next t) (ht : internalTurn t = .next u) :
    internalTurns (m + 1) s = .next u := by
  rw [internalTurns_add m 1 hm, internalTurns_succ ht, internalTurns]

section
variable {s : State} {B : Block} {rest : List Block} (hp : s.phase = .busy) (hc : s.cstate = .idle) (hq : s.q = B :: rest)
  (hB : B.length = 64)
include hp hc hq hB

theorem internalTurns_afterRounds (n : Nat) (hn : n ≤ 64) : internalTurns (n + 1) s = .next (afterRounds B rest s n) := by
  induction n with
  | zero => rw [internalTurns_succ (internalTurn_load hp hc hq hB)]; rfl
  | succ n ih =>
    rw [← rnd_afterRounds B rest s hn]
    exact internalTurns_concat (ih (by omega)) (internalTurn_rnd (afterRounds_busy B rest hp n) (roundDue_of_lt hn))

theorem internalTurns_block : internalTurns 66 s = .next (fold (afterRounds B rest s 64)) :=
  internalTurns_concat (internalTurns_afterRounds hp hc hq hB 64 le_rfl)
    (internalTurn_fold (afterRounds_busy B rest hp 64) (afterRounds_cstate_all B rest s))

end

/-- Settles O21: LOAD, 64 rounds and FOLD compute what compress does. -/
theorem blockIsCompressedInSixtySixSteps : Obligations.BlockIsCompressedInSixtySixSteps := by
  intro s B rest hp hc hq hB
  have hrounds := internalTurns_afterRounds hp hc hq hB
  have hbusy := afterRounds_busy B rest hp
  refine ⟨⟨_, internalTurns_block hp hc hq hB, fold_afterRounds B rest hp 64⟩,
    fun n => ⟨_, hrounds n n.isLt.le, hbusy n, ?_⟩,
    ⟨_, hrounds 64 le_rfl, hbusy 64, afterRounds_cstate_all B rest s⟩⟩
  rw [afterRounds_cstate, roundDue_of_lt n.isLt]

/-- A BUSY phase that starts with k queued blocks has 66·k internal steps left (41 R140). -/
theorem workLeft_of_busy_idle {s : State} (hs : s.Inv) (hp : s.phase = .busy) (hc : s.cstate = .idle) :
    WorkLeft s.fin (66 * s.q.length) s := by
  obtain ⟨B, rest, hq, -⟩ := hs.queue_of_busy_idle hp hc
  exact ⟨hs, rfl, by simp [State.stepsLeft, hc, CState.stepsLeft], by simp [phaseWithLeft, hq, hp]⟩

/-- Settles O22: the steps of the first block by O21, the phase by the number of steps left. -/
theorem busyPhaseLastsSixtySixStepsPerBlock : Obligations.BusyPhaseLastsSixtySixStepsPerBlock := by
  intro s hs hp hc
  obtain ⟨B, rest, hq, hB⟩ := hs.queue_of_busy_idle hp hc
  obtain ⟨⟨t, ht, -, -, hidle, -⟩, hrounds, ⟨v, hv, -, hfold⟩⟩ :=
    blockIsCompressedInSixtySixSteps s B rest hp hc hq hB
  have hwork := workLeft_of_busy_idle hs hp hc
  refine ⟨fun n => ?_, ⟨v, hv, hfold⟩, ⟨t, ht, hidle⟩, fun n hn => ?_, ?_⟩
  · obtain ⟨u, hu, -, hrnd⟩ := hrounds n
    exact ⟨u, hu, hrnd⟩
  · obtain ⟨u, hu, hleft⟩ := hwork.internalTurns n
    exact ⟨u, hu, by rw [hleft.phase_eq, phaseWithLeft, if_neg (by omega)]⟩
  · obtain ⟨u, hu, hleft⟩ := hwork.internalTurns (66 * s.q.length)
    exact ⟨u, hu, by rw [hleft.phase_eq, phaseWithLeft, if_pos (by omega)]⟩

end Sys2Proof.Machine
end

section
/-! The registers of the window: what each one reads and what a write to it does (O26, O28). -/

namespace Sys2Proof.Machine

/-- A flag is 2^k in its place (10 R39). -/
theorem flagAt_eq_ite (k : Nat) (b : Bool) : flagAt k b = if b = true then (1 : Word) <<< k else 0 := by
  cases b <;> simp [flagAt]

/-- STATUS as the sum of its terms (42 R161). -/
theorem statusWord_eq_or (s : State) : statusWord s =
    (s.errcode.zeroExtend 32 <<< 4 ||| (if s.phase = .error then 4 else 0) ||| (if s.phase = .done then 2 else 0) |||
      (if s.phase = .busy then 1 else 0)) := by
  simp only [statusWord, flagAt_eq_ite, errFlag, doneFlag, busyFlag, beq_iff_eq]
  rfl

/-- MSGLEN_HI and MSGLEN_LO are the two halves of LEN (10 R36). -/
theorem msglenHi_append_msglenLo (s : State) : busRead .msglenHi s ++ busRead .msglenLo s = s.len := by
  have hjoin := BitVec.extractLsb'_append_extractLsb'_eq_extractLsb' (x := s.len) (start₂ := 32) (len₂ := 32) (start₁ := 0)
    (len₁ := 32) rfl
  exact hjoin.trans BitVec.extractLsb'_eq_self

/-- Settles O26: STATUS and MSGLEN by their halves and terms, the other registers by their definition. -/
theorem registerReadValues : Obligations.RegisterReadValues := fun s =>
  ⟨rfl, statusWord_eq_or s, msglenHi_append_msglenLo s, fun _ => rfl, fun _ => rfl, fun _ => rfl⟩

/-- Settles O28: a DATA write sets one entry of the vector; only CMD and DATA are written at all. -/
theorem registerWriteEffects : Obligations.RegisterWriteEffects := by
  intro s v
  refine ⟨rfl, fun i => ⟨s.data.set i v, rfl, by simp, fun j hj => ?_⟩, rfl, rfl, rfl, fun _ => rfl, fun _ => rfl⟩
  exact Vector.getElem_set_ne i.isLt j.isLt (by simpa [Fin.ext_iff] using hj.symm)

end Sys2Proof.Machine
end

section
/-! The commands: each completes in every state, what each does in READY, the order of the checks, and the step that runs
the decoded word (O30, O31, O32, O33, O34, O52). -/

namespace Sys2Proof.Machine

/-! ### Completion -/

theorem exec_completes (i : Instr) (s : State) : ∃ t, exec i s = .next t := by
  cases i with
  | init => exact ⟨startMessage s, rfl⟩
  | block => exact ⟨inReady s blockInReady, rfl⟩
  | final nb => exact ⟨inReady s (finalInReady nb), rfl⟩

/-- A CMD write completes, its word decoded or not: an error is a next state (60 R202). -/
theorem command_completes (v : Word) (s : State) : ∃ t, command v s = .next t := by
  cases hd : decode v with
  | ok i =>
    rw [command_ok hd]
    exact exec_completes i s
  | error e => exact ⟨_, command_error hd s⟩

/-- Settles O30, by the instruction and by how the word decodes. -/
theorem everyCommandAnswersANextState : Obligations.EveryCommandAnswersANextState := fun i v s =>
  ⟨exec_completes i s, command_completes v s⟩

/-! ### The commands in READY -/

/-- READY without an error shows in STATUS as 0 (10 R39). -/
theorem status_eq_zero {s : State} (hp : s.phase = .ready) (he : s.errcode = 0) : busRead .status s = 0 := by
  rw [busRead, statusWord_eq, hp, he]
  decide

/-- Settles O31: the state is the start of a message, READY with ERRCODE 0. -/
theorem initStartsAMessageInEveryPhase : Obligations.InitStartsAMessageInEveryPhase := by
  intro s
  exact ⟨startMessage s, rfl, rfl, status_eq_zero rfl rfl⟩

theorem exec_block_ready {s : State} (hp : s.phase = .ready) : exec .block s = .next (blockInReady s) :=
  congrArg Host.Outcome.next (inReady_ready hp blockInReady)

theorem exec_final_ready {s : State} (hp : s.phase = .ready) (nb : BitVec 6) :
    exec (.final nb) s = .next (finalInReady nb s) :=
  congrArg Host.Outcome.next (inReady_ready hp (finalInReady nb))

theorem blockInReady_within_limit {s : State} (hl : tooLarge s = false) :
    blockInReady s = enqueue [chunk s.data] (s.len + 64) false s := by
  rw [blockInReady, hl]
  rfl

theorem blockInReady_tooLarge {s : State} (hl : tooLarge s = true) : blockInReady s = raiseError .tooLarge s := by
  rw [blockInReady, hl]
  rfl

/-- Settles O32, by the length check; the chunk is the serialization of DATA. -/
theorem blockAbsorbsOneChunk : Obligations.BlockAbsorbsOneChunk := by
  intro s hp
  rw [exec_block_ready hp]
  refine ⟨fun hlen => ?_, fun hlen => ?_⟩
  · have hl := tooLarge_eq_false.2 hlen
    rw [blockInReady_within_limit hl]
    exact ⟨chunk s.data, rfl, blockLen_toNat hl, chunk_length s.data, serialize_getElem? s.data⟩
  · rw [blockInReady_tooLarge (tooLarge_eq_true.2 hlen)]
    rfl

/-- Settles O33: the blocks are those of the padded tail (O12), and LEN within R25's bound does not wrap. -/
theorem finalPadsAndQueuesTheTail : Obligations.FinalPadsAndQueuesTheTail := by
  intro nb s hp
  have hnb := nb.isLt
  have htail := tail_length s.data nb
  obtain ⟨hone, htwo, -⟩ := tailPaddingMakesWholeBlocks (tail s.data nb) (finalLen nb s) (by omega)
  refine ⟨finalLen nb s, padTail (tail s.data nb) (finalLen nb s), exec_final_ready hp nb, rfl, fun h => hone (htail ▸ h),
    fun h => htwo (htail ▸ h), fun hle => ?_⟩
  have hlen := finalLen_toNat nb hle
  exact ⟨hlen, by omega⟩

/-! ### The checks -/

theorem command_of_not_legal {v : Word} (hv : legalWord v = false) (s : State) :
    command v s = .next (illegalCommand s) := by
  cases hd : decode v with
  | ok i => simp [legalWord_of_decode hd] at hv
  | error e => exact command_error hd s

/-- A command other than INIT is checked against the phase before it runs (42 R162). -/
theorem exec_checked {i : Instr} (hi : i ≠ .init) (s : State) : ∃ run, exec i s = .next (inReady s run) := by
  cases i with
  | init => exact absurd rfl hi
  | block => exact ⟨blockInReady, rfl⟩
  | final nb => exact ⟨finalInReady nb, rfl⟩

/-- OP of a legal word selects the instruction, and FINAL's count is NBYTES (30 R71, R72). -/
theorem exists_decode_of_legal {v : Word} (hv : legalWord v = true) : ∃ i, decode v = .ok i ∧
    v.extractLsb' 0 4 = i.fields.op ∧ v.extractLsb' 4 6 = i.fields.nbytes := by
  obtain ⟨i, hd⟩ := (legalWord_iff v).1 hv
  have hfields := fieldsOf_of_decode hd
  exact ⟨i, hd, congrArg CmdFields.op hfields, congrArg CmdFields.nbytes hfields⟩

/-- Settles O34: the legality check, then the instruction by OP, then the phase. -/
theorem commandChecksInOrder : Obligations.CommandChecksInOrder := by
  intro v s
  by_cases hv : legalWord v = true
  · obtain ⟨i, hd, hop, hnb⟩ := exists_decode_of_legal hv
    simp only [hv, command_ok hd, hop, hnb, Bool.true_eq_false, false_implies, true_implies, true_and]
    have hchecked (hi : i ≠ .init) := exec_checked hi s
    cases i with
    | init => simp [Instr.fields]
    | block | final =>
      obtain ⟨run, hrun⟩ := hchecked nofun
      simp +contextual [Instr.fields, hrun, inReady_error, inReady_busy, inReady_done]
  · have hv : legalWord v = false := by simpa using hv
    simp +contextual [hv, command_of_not_legal hv, illegalCommand]

/-! ### The step of a CMD write -/

theorem hostLine_cmdLine (v : Word) (s : State) : hostLine (cmdLine v) s = command v s := by
  simp [hostLine, cmdLine, accessWrite, busWrite]

/-- The host's turn on a CMD write is the command, the line and the turn taken (42 R160). -/
theorem step_cmdLine {s : State} {v : Word} {rest : List HostLine} (ht : nextTurn s = .host)
    (hl : s.host.lines = cmdLine v :: rest) : step s = command v (setLines rest (dropTurn s)) := by
  rw [step_hostLine ht hl, hostLine_cmdLine]

theorem decode_tableWord {nbits w : Nat} {i : Instr} (h : decodeTableWord nbits w = some i) :
    decode (tableWord nbits w) = .ok i := by
  have h : (if w % 2 ^ nbits < 2 ^ 32 then (decode (tableWord nbits w)).toOption else none) = some i := h
  split at h
  · cases hd : decode (tableWord nbits w) with
    | ok j => rw [hd] at h; cases h; rfl
    | error e => rw [hd] at h; cases h
  · cases h

/-- Settles O52: the host's turn is the command; the placed line and its turn are the ones the step takes. -/
theorem stepRunsTheDecodedCommand : Obligations.StepRunsTheDecodedCommand := by
  refine ⟨fun s v rest ht hl => ⟨fun i hd => ?_, fun hd => ?_⟩, fun s nbits w i h => ?_⟩
  · rw [step_cmdLine ht hl, command_ok hd]
    rfl
  · rw [step_cmdLine ht hl, command_of_not_legal (Bool.eq_false_iff.2 (mt (legalWord_iff v).1 (not_exists.2 hd)))]
    rfl
  · rw [step_cmdLine (s := s.withFetchWord nbits w) rfl rfl, command_ok (decode_tableWord h)]
    rfl

end Sys2Proof.Machine
end

section
/-! What the digest registers show: H in DONE only, how DONE is left, and that outside DONE no step depends on H and a..h
(O40, O41). -/

namespace Sys2Proof.Machine

/-! ### DONE -/

/-- A command leaves DONE: INIT to READY, every other to ERROR (42 R166). -/
theorem CommandEffect.phase_from_done {s t : State} {i : Instr} (h : CommandEffect s i t) (hp : s.phase = .done) :
    t.phase = if i = .init then .ready else .error := by
  cases h with
  | start => rfl
  | ignored i hi he => simp [hp] at he
  | raised i e hi => simp [hi]
  | block hr => simp [hp] at hr
  | final nb hr => simp [hp] at hr

/-- Settles O40, by the cases of what a step can do: only a CMD write and the reset event leave DONE or change H. -/
theorem digestReadableOnlyInDone : Obligations.DigestReadableOnlyInDone := by
  refine ⟨fun _ _ => rfl, fun s t h hp => ?_⟩
  obtain ⟨u, ⟨hh, -, -, -, hphase, -⟩, hmove⟩ := step_cases h
  rw [← hphase] at hp
  rw [← hh]
  cases hmove with
  | quiet hsame =>
    obtain ⟨hh, -, -, -, hphase, -⟩ := hsame
    exact .inl ⟨hphase.trans hp, hh⟩
  | command v i rest ht hl hd he =>
    refine .inr (.inr ⟨ht, v, rest, hl, ?_⟩)
    have ht := (exec_cases he).phase_from_done hp
    rw [eq_encode_of_decode hd]
    by_cases hi : i = .init
    · simpa [hi] using ht
    · simpa [hi, encode_injective.eq_iff] using ht
  | illegal v e rest ht hl hd he =>
    have hv : v ≠ encode .init := by
      rintro rfl
      simp [decode_encode] at hd
    exact .inr (.inr ⟨ht, v, rest, hl, by simp [hv, he, illegalCommand, hp]⟩)
  | data i v a rest ht hl ha he => exact .inl (by simp [he, hp])
  | internal ht hb => simp [hp] at hb
  | reset ht => exact .inr (.inl ht)

/-! ### States that differ in H and a..h -/

/-- The state with another hash state and other working registers. -/
def withHash (x : Vector Word 8) (r : Regs) (s : State) : State := { s with h := x, reg := r }

/-- Outcomes that the host cannot tell apart: next states that differ in H and a..h only, or the same stop. -/
inductive SameButHash : Host.Outcome State Fault Refusal → Host.Outcome State Fault Refusal → Prop where
  | next {t t' : State} (h : EqualButHash t t') : SameButHash (.next t) (.next t')
  | fault (f : Fault) : SameButHash (.fault f) (.fault f)
  | refused (r : Refusal) : SameButHash (.refused r) (.refused r)

theorem SameButHash.answers {o o' : Host.Outcome State Fault Refusal} (h : SameButHash o o') :
    (∀ t, o = .next t → ∃ t', o' = .next t' ∧ EqualButHash t t') ∧ (∀ f, o = .fault f → o' = .fault f) ∧
      ∀ r, o = .refused r → o' = .refused r := by
  cases h with
  | next h => simpa using h
  | fault f => simp
  | refused r => simp

section
variable (x : Vector Word 8) (r : Regs)

/-- DIGESTi is the one register that shows H, in DONE (42 R166). -/
theorem busRead_withHash {s : State} (hp : s.phase ≠ .done) (reg : Reg) : busRead reg (withHash x r s) = busRead reg s := by
  cases reg with
  | digest i => simp [busRead, digestWord, withHash, hp]
  | cmd | status | msglenLo | msglenHi | reserved i | data i => rfl

/-! #### Commands -/

theorem inReady_withHash {s : State} {run : State → State} (hrun : EqualButHash (run s) (run (withHash x r s))) :
    EqualButHash (inReady s run) (inReady (withHash x r s) run) := by
  cases hp : s.phase with
  | ready => rwa [inReady_ready hp, inReady_ready (s := withHash x r s) hp]
  | busy => rw [inReady_busy hp, inReady_busy (s := withHash x r s) hp]; rfl
  | done => rw [inReady_done hp, inReady_done (s := withHash x r s) hp]; rfl
  | error => rw [inReady_error hp, inReady_error (s := withHash x r s) hp]; rfl

theorem blockInReady_withHash (s : State) : EqualButHash (blockInReady s) (blockInReady (withHash x r s)) := by
  cases hl : tooLarge s with
  | false => rw [blockInReady_within_limit hl, blockInReady_within_limit (s := withHash x r s) hl]; rfl
  | true => rw [blockInReady_tooLarge hl, blockInReady_tooLarge (s := withHash x r s) hl]; rfl

theorem exec_withHash (i : Instr) (s : State) : SameButHash (exec i s) (exec i (withHash x r s)) := by
  cases i with
  | init => exact .next rfl
  | block => exact .next (inReady_withHash x r (blockInReady_withHash x r s))
  | final nb => exact .next (inReady_withHash x r rfl)

theorem illegalCommand_withHash (s : State) : EqualButHash (illegalCommand s) (illegalCommand (withHash x r s)) := by
  by_cases hp : s.phase = .error
  · rw [illegalCommand, illegalCommand, if_pos hp, if_pos (show (withHash x r s).phase = .error from hp)]; rfl
  · rw [illegalCommand, illegalCommand, if_neg hp, if_neg (show (withHash x r s).phase ≠ .error from hp)]; rfl

theorem command_withHash (v : Word) (s : State) : SameButHash (command v s) (command v (withHash x r s)) := by
  cases hd : decode v with
  | ok i => rw [command_ok hd, command_ok hd]; exact exec_withHash x r i s
  | error e => rw [command_error hd, command_error hd]; exact .next (illegalCommand_withHash x r s)

/-! #### The host's lines -/

theorem busWrite_withHash (reg : Reg) (v : Word) (s : State) :
    SameButHash (busWrite reg v s) (busWrite reg v (withHash x r s)) := by
  cases reg with
  | cmd => exact command_withHash x r v s
  | status | msglenLo | msglenHi | reserved i | digest i | data i => exact .next rfl

theorem accessWrite_withHash (a : Access) (v : Word) (s : State) :
    SameButHash (accessWrite a v s) (accessWrite a v (withHash x r s)) := by
  unfold accessWrite
  cases decodeAccess a with
  | ok reg => exact busWrite_withHash x r reg v s
  | error e => exact .refused _

/-- A read outside DONE hands over the same value. -/
theorem accessRead_withHash (a : Access) {s : State} (hp : s.phase ≠ .done) {use : Word → State → State}
    (huse : ∀ v, EqualButHash (use v s) (use v (withHash x r s))) :
    SameButHash (accessRead a s use) (accessRead a (withHash x r s) use) := by
  unfold accessRead
  cases decodeAccess a with
  | ok reg => simp only [busRead_withHash x r hp]; exact .next (huse _)
  | error e => exact .refused _

theorem jump_withHash (l : HostName) (s : State) : SameButHash (jump l s) (jump l (withHash x r s)) := by
  rw [jump, jump, show (withHash x r s).host = s.host from rfl]
  cases linesAfter l s.host.prog with
  | some ls => exact .next rfl
  | none => exact .refused _

theorem branch_withHash (y : HostName) (k : Nat) (b : Bool) (l : HostName) (s : State) :
    SameButHash (branch y k b l s) (branch y k b l (withHash x r s)) := by
  rw [branch, branch, show (withHash x r s).host = s.host from rfl]
  cases s.host.named.lookup y with
  | none => exact .refused _
  | some v =>
    by_cases hk : 32 ≤ k
    · simp only [if_pos hk]; exact .refused _
    · by_cases hv : v.getLsbD k = b
      · simp only [if_neg hk, if_pos hv]; exact jump_withHash x r l s
      · simp only [if_neg hk, if_neg hv]; exact .next rfl

theorem hostLine_withHash (line : HostLine) {s : State} (hp : s.phase ≠ .done) :
    SameButHash (hostLine line s) (hostLine line (withHash x r s)) := by
  cases line with
  | wr a v => exact accessWrite_withHash x r a v s
  | rd a => exact accessRead_withHash x r a hp (use := observe) fun _ => rfl
  | rdTo a y => exact accessRead_withHash x r a hp (use := fun v s => nameValue y v (observe v s)) fun _ => rfl
  | label l => exact .next rfl
  | ifBit y k b l => exact branch_withHash x r y k b l s

/-! #### The turns -/

theorem hostTurn_withHash {s : State} (hp : s.phase ≠ .done) : SameButHash (hostTurn s) (hostTurn (withHash x r s)) := by
  rw [hostTurn, hostTurn, show (withHash x r s).host = s.host from rfl]
  cases s.host.lines with
  | nil => exact .next rfl
  | cons line rest => exact hostLine_withHash x r line (s := setLines rest s) hp

/-- LOAD takes a..h from H, and a fault of it is one of Q. -/
theorem load_withHash (s : State) : SameButHash (load s) (load (withHash x r s)) := by
  rw [load, load, show (withHash x r s).q = s.q from rfl]
  cases s.q with
  | nil => exact .fault _
  | cons B rest =>
    by_cases hB : B.length = Config.blockBytes
    · simp only [if_pos hB]; exact .next rfl
    · simp only [if_neg hB]; exact .fault _

theorem internalStep_withHash (s : State) : SameButHash (internalStep s) (internalStep (withHash x r s)) := by
  rw [internalStep, internalStep, show (withHash x r s).cstate = s.cstate from rfl]
  cases s.cstate with
  | idle => exact load_withHash x r s
  | rnd t => exact .next rfl
  | fold => exact .next rfl

theorem internalTurn_withHash (s : State) : SameButHash (internalTurn s) (internalTurn (withHash x r s)) := by
  by_cases hp : s.phase = .busy
  · rw [internalTurn_busy hp, internalTurn_busy (s := withHash x r s) hp]; exact internalStep_withHash x r s
  · rw [internalTurn_rest hp, internalTurn_rest (s := withHash x r s) hp]; exact .next rfl

theorem step_withHash {s : State} (hp : s.phase ≠ .done) : SameButHash (step s) (step (withHash x r s)) := by
  rw [step, step, show nextTurn (withHash x r s) = nextTurn s from rfl]
  cases nextTurn s with
  | host => exact hostTurn_withHash x r (s := dropTurn s) hp
  | internal => exact internalTurn_withHash x r (dropTurn s)
  | reset => exact .next rfl

end

/-- Settles O41: no turn's outcome shows H or a..h. -/
theorem chainingValueIsNeverExposed : Obligations.ChainingValueIsNeverExposed := by
  intro s s' heq hp
  obtain ⟨x, r, rfl⟩ : ∃ x r, s' = withHash x r s := ⟨_, _, heq⟩
  exact ⟨busRead_withHash x r hp, (step_withHash x r hp).answers⟩

end Sys2Proof.Machine
end

section
/-! Runs of a host program under every interleaving: the host's next line is reached, runs, and a `wait` is left; which
label a `wait` jumps to. -/

namespace Sys2Proof.Machine

/-! ### Reaching a state -/

/-- Some steps lead to a state that satisfies Q. -/
def Reaches (s : State) (Q : State → Prop) : Prop := ∃ n t, Sys2Proof.core.run n s = .next t ∧ Q t

theorem Reaches.here {s : State} {Q : State → Prop} (h : Q s) : Reaches s Q := ⟨0, s, rfl, h⟩

theorem Reaches.of_step {s t : State} {Q : State → Prop} (hstep : step s = .next t) (h : Reaches t Q) : Reaches s Q := by
  obtain ⟨n, u, hrun, hQ⟩ := h
  exact ⟨n + 1, u, (core_run_succ hstep n).trans hrun, hQ⟩

theorem core_run_succ_eq_next {n : Nat} {s u : State} (h : Sys2Proof.core.run (n + 1) s = .next u) :
    ∃ t, step s = .next t ∧ Sys2Proof.core.run n t = .next u := by
  cases hs : step s with
  | next t => exact ⟨t, rfl, (core_run_succ hs n).symm.trans h⟩
  | fault f =>
    have hs : Sys2Proof.core.step s = .fault f := hs
    simp [Host.Core.run, hs] at h
  | refused r =>
    have hs : Sys2Proof.core.step s = .refused r := hs
    simp [Host.Core.run, hs] at h

/-- One run after another. -/
theorem Reaches.bind {s : State} {Q R : State → Prop} (h : Reaches s Q) (hnext : ∀ t, Q t → Reaches t R) : Reaches s R := by
  obtain ⟨n, u, hrun, hQ⟩ := h
  induction n generalizing s with
  | zero => cases hrun; exact hnext _ hQ
  | succ n ih =>
    obtain ⟨t, hstep, hrun⟩ := core_run_succ_eq_next hrun
    exact .of_step hstep (ih hrun)

/-! ### The host at its next line -/

/-- The host stands at the given lines of the program `prog`, the hardware meets P and no reset is to come. -/
structure HostAt (P : State → Prop) (prog lines : List HostLine) (s : State) : Prop where
  hw : P s
  noReset : .reset ∉ s.sched
  prog_eq : s.host.prog = prog
  lines_eq : s.host.lines = lines

section
variable {P Q : State → Prop} {prog lines : List HostLine} {s : State}

theorem HostAt.next {t : State} {lines' : List HostLine} (h : HostAt P prog lines s) (hw : Q t)
    (hs : t.sched = s.sched.tail) (hprog : t.host.prog = s.host.prog) (hl : t.host.lines = lines') :
    HostAt Q prog lines' t where
  hw := hw
  noReset hmem := h.noReset (List.mem_of_mem_tail (hs ▸ hmem))
  prog_eq := hprog.trans h.prog_eq
  lines_eq := hl

/-- A turn of the compressor is an internal step of the work, or does nothing; the host stays where it is. -/
theorem HostAt.internalTurn (h : HostAt P prog lines s) (hP : KeptWhileWaiting P) (ht : nextTurn s = .internal) :
    ∃ t, step s = .next t ∧ t.sched = s.sched.tail ∧ (s.phase = .busy → t.stepsLeft + 1 = s.stepsLeft) ∧
      HostAt P prog lines t := by
  have hstep : step s = Machine.internalTurn (dropTurn s) := by rw [step, ht, takeTurn]
  have hdrop : P (dropTurn s) := hP.sameHw h.hw (by simp [SameHw])
  by_cases hp : s.phase = .busy
  · obtain ⟨t, hinner⟩ := internalStep_completes (hP.inv hdrop) hp
    have heff := internalStep_cases hinner
    obtain ⟨hhost, hsched⟩ := heff.agents
    exact ⟨t, hstep.trans ((internalTurn_busy (s := dropTurn s) hp).trans hinner), hsched, fun _ => heff.stepsLeft_succ,
      h.next (hP.internal hdrop hp hinner) hsched (congrArg HostAgent.prog hhost)
        ((congrArg HostAgent.lines hhost).trans h.lines_eq)⟩
  · exact ⟨_, hstep.trans (internalTurn_rest hp), rfl, fun hb => absurd hb hp, h.next hdrop rfl rfl h.lines_eq⟩

/-- With the list used up, the host's turn comes once the compressor's work is finished. -/
theorem HostAt.reaches_hostTurn_of_nil (h : HostAt P prog lines s) (hP : KeptWhileWaiting P) (hs : s.sched = []) :
    Reaches s fun u => HostAt P prog lines u ∧ nextTurn u = .host := by
  induction hleft : s.stepsLeft using Nat.strong_induction_on generalizing s with
  | _ k ih =>
    by_cases hp : s.phase = .busy
    · obtain ⟨t, hstep, hsched, hsucc, ht⟩ := h.internalTurn hP (by rw [nextTurn_nil hs, fairTurn, if_pos hp])
      have hlt := hsucc hp
      exact .of_step hstep (ih t.stepsLeft (by omega) ht (by rw [hsched, hs]; rfl) rfl)
    · exact .here ⟨h, by rw [nextTurn_nil hs, fairTurn, if_neg hp]⟩

/-- The host's turn comes under every list of host and compressor turns (20 R59). -/
theorem HostAt.reaches_hostTurn (h : HostAt P prog lines s) (hP : KeptWhileWaiting P) :
    Reaches s fun u => HostAt P prog lines u ∧ nextTurn u = .host := by
  induction hs : s.sched generalizing s with
  | nil => exact h.reaches_hostTurn_of_nil hP hs
  | cons turn ts ih =>
    have hturn := nextTurn_cons hs
    cases turn with
    | host => exact .here ⟨h, hturn⟩
    | internal =>
      obtain ⟨t, hstep, hsched, -, ht⟩ := h.internalTurn hP hturn
      exact .of_step hstep (ih ht (by rw [hsched, hs]; rfl))
    | reset => exact absurd (hs ▸ List.mem_cons_self) h.noReset

/-- The host's next line runs, if it leaves the host's position and the turns alone. -/
theorem HostAt.line {line : HostLine} {rest : List HostLine} (h : HostAt P prog (line :: rest) s)
    (hP : KeptWhileWaiting P)
    (hline : ∀ u, P u → ∃ t, hostLine line u = .next t ∧ Q t ∧ t.host = u.host ∧ t.sched = u.sched) :
    Reaches s (HostAt Q prog rest) := by
  refine (h.reaches_hostTurn hP).bind fun u ⟨hu, hturn⟩ => ?_
  obtain ⟨t, ht, hQ, hhost, hsched⟩ := hline _ (hP.sameHw hu.hw (sameHw_setLines_dropTurn rest u))
  exact .of_step ((step_hostLine hturn hu.lines_eq).trans ht)
    (.here (hu.next hQ hsched (congrArg HostAgent.prog hhost :) (congrArg HostAgent.lines hhost :)))

/-- What holds in a phase other than BUSY needs no internal step to keep it. -/
theorem keptWhileWaiting_of_rest (hinv : ∀ {s}, P s → s.Inv) (hrest : ∀ {s}, P s → s.phase ≠ .busy)
    (hsame : ∀ {s t}, P s → SameHw s t → P t) : KeptWhileWaiting P :=
  ⟨hinv, hsame, fun hs hp => absurd hp (hrest hs)⟩

/-! ### Labels -/

/-- Every label in the lines is below l. -/
def LabelsBelow (l : HostName) (ls : List HostLine) : Prop := ∀ m, .label m ∈ ls → m < l

theorem labelsBelow_append {l : HostName} {as bs : List HostLine} :
    LabelsBelow l (as ++ bs) ↔ LabelsBelow l as ∧ LabelsBelow l bs := by
  simp only [LabelsBelow, List.mem_append, or_imp, forall_and]

theorem LabelsBelow.mono {l m : HostName} {ls : List HostLine} (h : LabelsBelow l ls) (hle : l ≤ m) : LabelsBelow m ls :=
  fun k hk => (h k hk).trans_le hle

theorem labelsBelow_cmdLine (l : HostName) (v : Word) : LabelsBelow l [cmdLine v] := by
  simp [LabelsBelow, cmdLine]

theorem labelsBelow_psLdata (l : HostName) (S : List Byte) : LabelsBelow l (psLdata S) := by
  simp [LabelsBelow, psLdata]

theorem labelsBelow_psWait (l x : HostName) : LabelsBelow (l + 1) (psWait l x) := by
  simp [LabelsBelow, psWait]

theorem labelsBelow_chunkLines (l : HostName) (C : Block) : LabelsBelow (l + 1) (chunkLines l C) := by
  simp only [chunkLines, labelsBelow_append]
  exact ⟨⟨labelsBelow_psLdata _ C, labelsBelow_cmdLine _ _⟩, labelsBelow_psWait l 0⟩

/-- The waits of the chunks have the labels from l on, one each. -/
theorem labelsBelow_chunksLines (l : HostName) (bs : List Block) : LabelsBelow (l + bs.length) (chunksLines l bs) := by
  induction bs generalizing l with
  | nil => simp [LabelsBelow, chunksLines]
  | cons C bs ih =>
    rw [chunksLines, labelsBelow_append, List.length_cons, Nat.add_comm bs.length 1, ← Nat.add_assoc]
    exact ⟨(labelsBelow_chunkLines l C).mono (Nat.le_add_right _ _), ih (l + 1)⟩

/-- A label that stands nowhere before is found (log 20). -/
theorem linesAfter_append_label {l : HostName} {pre : List HostLine} (hpre : LabelsBelow l pre) (ls : List HostLine) :
    linesAfter l (pre ++ .label l :: ls) = some ls := by
  induction pre with
  | nil => simp [linesAfter]
  | cons line pre ih =>
    have hline : line ≠ .label l := by
      rintro rfl
      exact lt_irrefl l (hpre l List.mem_cons_self)
    rw [List.cons_append, linesAfter, if_neg hline]
    exact ih fun m hm => hpre m (List.mem_cons_of_mem line hm)

/-- P, in a phase other than BUSY. -/
def AtRest (P : State → Prop) (s : State) : Prop := P s ∧ s.phase ≠ .busy

/-- A `wait` with a fresh label is left, with a phase other than BUSY (30 R78). -/
theorem HostAt.wait {l x : HostName} {pre rest : List HostLine} (h : HostAt P prog (psWait l x ++ rest) s)
    (hP : KeptWhileWaiting P) (hprog : prog = pre ++ (psWait l x ++ rest)) (hpre : LabelsBelow l pre) :
    Reaches s (HostAt (AtRest P) prog rest) := by
  have htarget : linesAfter l prog = some ((psWait l x).tail ++ rest) := hprog ▸ linesAfter_append_label hpre _
  have hwait : Waiting l x rest P prog 3 s := ⟨h.hw, h.noReset, h.prog_eq, htarget, .label h.lines_eq⟩
  obtain ⟨k, t, hrun, ht⟩ := hwait.ends hP
  cases ht.pos with
  | past hl hp => exact ⟨k, t, hrun, ⟨ht.hw, hp⟩, ht.noReset, ht.prog_eq, hl⟩

end

end Sys2Proof.Machine
end

section
/-! The host protocol (O57): what the hardware holds at each line of the message's program, and the digest at its end. -/

namespace Sys2Proof.Machine

/-! ### The hash that is due -/

/-- The chaining value is X once the block in work and the queued blocks are compressed. -/
inductive HashDue (X : Vector Word 8) (s : State) : Prop where
  /-- No block is in work. -/
  | idle (hc : s.cstate = .idle) (hX : compressAll s.h s.q = X)
  /-- The block B is in work, n rounds of it done. -/
  | inWork (B : Block) (n : Nat) (hn : n ≤ 64) (hc : s.cstate = roundDue n) (hw : s.w = sched (words B))
      (hreg : s.reg = rounds n (sched (words B)) (Regs.ofVec s.h)) (hX : compressAll (compress s.h B) s.q = X)

theorem roundDue_eq_rnd {n : Nat} {t : Fin 64} (h : roundDue n = .rnd t) : n = t.val := by
  unfold roundDue at h
  split at h
  · cases h; rfl
  · cases h

theorem roundDue_ne_idle (n : Nat) : roundDue n ≠ .idle := by
  unfold roundDue; split <;> nofun

/-- Internal steps work towards the hash that is due (41 R136 to R138). -/
theorem HashDue.internal {X : Vector Word 8} {s t : State} (h : HashDue X s) (heff : InternalEffect s t) : HashDue X t := by
  cases heff with
  | load B rest hc hq hB =>
    cases h with
    | idle _ hX => exact .inWork B 0 (by decide) rfl rfl rfl (by rw [← hX, hq]; rfl)
    | inWork _ n _ hc' => exact absurd (hc'.symm.trans hc) (roundDue_ne_idle n)
  | rnd m hc =>
    cases h with
    | idle hc' => simp [hc'] at hc
    | inWork B n _ hc' hw hreg hX =>
      obtain rfl := roundDue_eq_rnd (hc'.symm.trans hc)
      exact .inWork B (m + 1) m.isLt (afterRound_eq_roundDue m) hw
        (by rw [rnd_reg, hw, hreg, rounds_succ m m.isLt]; rfl) hX
  | fold hc =>
    cases h with
    | idle hc' => simp [hc'] at hc
    | inWork B n hn hc' _ hreg hX =>
      obtain rfl : n = 64 := by
        by_contra hne
        rw [hc', roundDue_of_lt (by omega)] at hc
        cases hc
      exact .idle rfl (by rw [← hX, fold_h, hreg]; rfl)

/-! ### The hardware between the lines -/

/-- A BLOCK (`fin` false) or FINAL was accepted; when its work is finished H is X, and LEN is L. -/
structure Absorbing (fin : Bool) (X : Vector Word 8) (L : Nat) (s : State) : Prop where
  inv : s.Inv
  fin_eq : s.fin = fin
  phase_eq : s.phase = phaseWithLeft fin s.stepsLeft
  hash : HashDue X s
  len_eq : s.len.toNat = L

/-- READY for the next chunk: H is X and LEN is L. -/
structure Ready (X : Vector Word 8) (L : Nat) (s : State) : Prop where
  inv : s.Inv
  phase_eq : s.phase = .ready
  h_eq : s.h = X
  len_eq : s.len.toNat = L

/-- READY, and DATA is d. -/
structure Staged (X : Vector Word 8) (L : Nat) (d : Vector Word 16) (s : State) : Prop extends Ready X L s where
  data_eq : s.data = d

/-- States with the same hardware differ in the agents. -/
theorem SameHw.exists_eq {s t : State} (h : SameHw s t) : ∃ host sched, t = { s with host := host, sched := sched } := by
  cases t
  obtain ⟨rfl, rfl, rfl, rfl, rfl, rfl, rfl, rfl, rfl, rfl⟩ := h
  exact ⟨_, _, rfl⟩

section
variable {fin : Bool} {X : Vector Word 8} {L : Nat} {d : Vector Word 16} {s : State}

theorem keptWhileWaiting_absorbing : KeptWhileWaiting (Absorbing fin X L) where
  inv h := h.inv
  sameHw h hsame := by
    have hinv := hsame.inv h.inv
    obtain ⟨host, sched, rfl⟩ := hsame.exists_eq
    refine ⟨hinv, h.fin_eq, h.phase_eq, ?_, h.len_eq⟩
    cases h.hash with
    | idle hc hX => exact .idle hc hX
    | inWork B n hn hc hw hreg hX => exact .inWork B n hn hc hw hreg hX
  internal h hp hstep := by
    have heff := internalStep_cases hstep
    obtain ⟨hlen, hfin, -⟩ := heff.frame
    have hfin := hfin.trans h.fin_eq
    exact ⟨internalStep_inv h.inv hp hstep, hfin, hfin ▸ heff.phase_eq hp, h.hash.internal heff, hlen ▸ h.len_eq⟩

theorem Ready.congr {t : State} (h : Ready X L s) (hsame : SameHw s t) : Ready X L t := by
  have hinv := hsame.inv h.inv
  obtain ⟨host, sched, rfl⟩ := hsame.exists_eq
  exact ⟨hinv, h.phase_eq, h.h_eq, h.len_eq⟩

theorem Ready.not_busy (h : Ready X L s) : s.phase ≠ .busy := by
  rw [h.phase_eq]; nofun

theorem keptWhileWaiting_staged : KeptWhileWaiting (Staged X L d) := by
  refine keptWhileWaiting_of_rest (fun h => h.inv) (fun h => h.not_busy) fun h hsame => ⟨h.congr hsame, ?_⟩
  obtain ⟨-, -, -, -, -, -, -, -, -, hdata⟩ := hsame
  exact hdata.trans h.data_eq

/-- When the work is finished H is the hash that was due, and the phase is that of the command (41 R138). -/
theorem Absorbing.finished (h : Absorbing fin X L s) (hp : s.phase ≠ .busy) :
    s.h = X ∧ s.phase = if fin then .done else .ready := by
  obtain ⟨hq, hc⟩ : s.q = [] ∧ s.cstate = .idle := by simpa [h.inv.busy_iff] using hp
  refine ⟨?_, by simp [h.phase_eq, phaseWithLeft, State.stepsLeft, CState.stepsLeft, hq, hc]⟩
  cases h.hash with
  | idle _ hX => rwa [hq] at hX
  | inWork _ n _ hc' => exact absurd (hc'.symm.trans hc) (roundDue_ne_idle n)

theorem Absorbing.ready (h : Absorbing false X L s) (hp : s.phase ≠ .busy) : Ready X L s := by
  obtain ⟨hX, hphase⟩ := h.finished hp
  exact ⟨h.inv, hphase, hX, h.len_eq⟩

/-- A command leaves the host and the scheduler's list. -/
theorem CommandEffect.agents {s t : State} {i : Instr} (h : CommandEffect s i t) : t.host = s.host ∧ t.sched = s.sched := by
  cases h <;> exact ⟨rfl, rfl⟩

/-- Accepted blocks, on top of the chaining value X, are due. -/
theorem Ready.absorbing_enqueue (h : Ready X L s) {bs : List Block} {len : BitVec 64}
    (hinv : (enqueue bs len fin s).Inv) : Absorbing fin (compressAll X bs) len.toNat (enqueue bs len fin s) := by
  have hc : (enqueue bs len fin s).cstate = .idle := h.inv.cstate_ready h.phase_eq
  have hwork := workLeft_of_busy_idle hinv rfl hc
  exact ⟨hinv, rfl, by rw [hwork.steps]; exact hwork.phase_eq, .idle hc (by rw [← h.h_eq]; rfl), rfl⟩

/-! ### The lines of the protocol -/

variable {prog rest : List HostLine}

theorem hostLine_cmdLine_encode (i : Instr) (s : State) : hostLine (cmdLine (encode i)) s = exec i s := by
  rw [hostLine_cmdLine, command_ok (decode_encode i)]

/-- A CMD write of a legal word runs its command. -/
theorem HostAt.command {P Q : State → Prop} {i : Instr} (h : HostAt P prog (cmdLine (encode i) :: rest) s)
    (hP : KeptWhileWaiting P) (hexec : ∀ u, P u → ∃ t, exec i u = .next t ∧ Q t) : Reaches s (HostAt Q prog rest) := by
  refine h.line hP fun u hu => ?_
  obtain ⟨t, ht, hQ⟩ := hexec u hu
  exact ⟨t, (hostLine_cmdLine_encode i u).trans ht, hQ, (exec_cases ht).agents⟩

theorem HostAt.init (h : HostAt State.Inv prog (psInit ++ rest) s) : Reaches s (HostAt (Ready H0 0) prog rest) :=
  HostAt.command (i := .init) h keptWhileWaiting_inv fun u _ => ⟨_, rfl, startMessage_inv u, rfl, rfl, rfl⟩

theorem HostAt.writes (f : Fin 16 → Word) (is : List (Fin 16)) (h : HostAt (Staged X L d) prog (dataLines f is ++ rest) s) :
    Reaches s (HostAt (Staged X L (writeWords f is d)) prog rest) := by
  induction is generalizing d s with
  | nil => exact .here h
  | cons i is ih =>
    refine Reaches.bind (h.line keptWhileWaiting_staged fun u hu => ?_) fun t ht => ih ht
    exact ⟨writeData i (f i) u, hostLine_wr_data i (f i) u,
      ⟨⟨writeData_inv hu.inv i (f i), hu.phase_eq, hu.h_eq, hu.len_eq⟩, by rw [writeData_data, hu.data_eq]⟩, rfl, rfl⟩

/-- `ldata S` stages the words of S and its zeros, whatever turns the compressor takes between the writes. -/
theorem HostAt.ldata {S : List Byte} (h : HostAt (Ready X L) prog (psLdata S ++ rest) s) :
    Reaches s (HostAt (Staged X L (words (S ++ List.replicate (64 - S.length) 0))) prog rest) := by
  have hstaged : HostAt (Staged X L s.data) prog (psLdata S ++ rest) s := { h with hw := ⟨h.hw, rfl⟩ }
  have hwrites := hstaged.writes (fun i => be32 (S ++ List.replicate (64 - S.length) 0) (4 * i.val)) (List.finRange 16)
  rwa [writeWords_finRange] at hwrites

/-- BLOCK on a staged chunk, within the length limit (42 R164). -/
theorem Staged.block (h : Staged X L d s) (hL : L + 64 < 2 ^ 61) :
    exec .block s = .next (blockInReady s) ∧ Absorbing false (compress X (chunk d)) (L + 64) (blockInReady s) := by
  have hl : tooLarge s = false := tooLarge_eq_false.2 (h.len_eq ▸ hL)
  have habs := h.absorbing_enqueue (enqueue_block_inv h.inv h.phase_eq hl)
  rw [← blockInReady_within_limit hl, blockLen_toNat hl, h.len_eq, h.data_eq] at habs
  exact ⟨exec_block_ready h.phase_eq, habs⟩

/-- FINAL on a staged tail (42 R165). -/
theorem Staged.final (h : Staged X L d s) (nb : BitVec 6) :
    exec (.final nb) s = .next (finalInReady nb s) ∧
      Absorbing true (compressAll X (padTail (tail d nb) (BitVec.ofNat 64 (L + nb.toNat)))) (L + nb.toNat)
        (finalInReady nb s) := by
  have habs : Absorbing true (compressAll X (padTail (tail s.data nb) (finalLen nb s))) (finalLen nb s).toNat
    (finalInReady nb s) := h.absorbing_enqueue (finalInReady_inv h.inv h.phase_eq nb)
  obtain ⟨-, hle⟩ := h.inv.len_ready h.phase_eq
  have hlen := finalLen_toNat nb hle
  rw [h.len_eq] at hlen
  have hfinalLen : finalLen nb s = BitVec.ofNat 64 (L + nb.toNat) := by rw [← hlen, BitVec.ofNat_toNat, BitVec.setWidth_eq]
  rw [hlen, hfinalLen, h.data_eq] at habs
  exact ⟨exec_final_ready h.phase_eq nb, habs⟩

theorem HostAt.block (h : HostAt (Staged X L d) prog (psBlock ++ rest) s) (hL : L + 64 < 2 ^ 61) :
    Reaches s (HostAt (Absorbing false (compress X (chunk d)) (L + 64)) prog rest) :=
  HostAt.command (i := .block) h keptWhileWaiting_staged fun _ hu => ⟨_, hu.block hL⟩

theorem HostAt.final (nb : BitVec 6) (h : HostAt (Staged X L d) prog (psFinal nb ++ rest) s) :
    Reaches s (HostAt (Absorbing true (compressAll X (padTail (tail d nb) (BitVec.ofNat 64 (L + nb.toNat)))) (L + nb.toNat))
      prog rest) :=
  HostAt.command (i := .final nb) h keptWhileWaiting_staged fun _ hu => ⟨_, hu.final nb⟩

/-- One full chunk: `ldata C`, `block`, `wait` (42 R167). -/
theorem HostAt.absorbs_chunk {l : HostName} {C : Block} {pre : List HostLine} (hC : C.length = 64) (hL : L + 64 < 2 ^ 61)
    (h : HostAt (Ready X L) prog (chunkLines l C ++ rest) s) (hprog : prog = pre ++ (chunkLines l C ++ rest))
    (hpre : LabelsBelow l pre) : Reaches s (HostAt (Ready (compress X C) (L + 64)) prog rest) := by
  simp only [chunkLines, List.append_assoc] at h hprog
  refine h.ldata.bind fun t ht => (ht.block hL).bind fun u hu => ?_
  have hstaged : chunk (words (C ++ List.replicate (64 - C.length) 0)) = C := by
    simpa [hC] using chunk_words hC
  rw [hstaged] at hu
  have hwait := hu.wait (pre := pre ++ (psLdata C ++ psBlock)) keptWhileWaiting_absorbing (by simp [hprog]) (by
    simp only [labelsBelow_append]
    exact ⟨hpre, labelsBelow_psLdata l C, labelsBelow_cmdLine l _⟩)
  refine hwait.bind fun v hv => .here ?_
  obtain ⟨habs, hp⟩ := hv.hw
  exact { hv with hw := habs.ready hp }

/-- The full chunks, each with its `wait`. -/
theorem HostAt.absorbs_chunks {l : HostName} {bs : List Block} {pre : List HostLine} (hbs : ∀ C ∈ bs, C.length = 64)
    (hL : L + 64 * bs.length < 2 ^ 61) (h : HostAt (Ready X L) prog (chunksLines l bs ++ rest) s)
    (hprog : prog = pre ++ (chunksLines l bs ++ rest)) (hpre : LabelsBelow l pre) :
    Reaches s (HostAt (Ready (compressAll X bs) (L + 64 * bs.length)) prog rest) := by
  induction bs generalizing X L l pre s with
  | nil => exact .here h
  | cons C bs ih =>
    rw [List.length_cons] at hL ⊢
    rw [List.forall_mem_cons] at hbs
    obtain ⟨hC, hbs⟩ := hbs
    simp only [chunksLines, List.append_assoc] at h hprog
    refine (h.absorbs_chunk hC (by omega) hprog hpre).bind fun t ht => ?_
    have hrest := ih (pre := pre ++ chunkLines l C) hbs (by omega) ht (by simp [hprog])
      (labelsBelow_append.2 ⟨hpre.mono (Nat.le_succ l), labelsBelow_chunkLines l C⟩)
    rwa [show L + 64 + 64 * bs.length = L + 64 * (bs.length + 1) by omega] at hrest

/-- The tail: `ldata T`, `final nb`, `wait` (42 R167). -/
theorem HostAt.absorbs_tail {l : HostName} {T : List Byte} {pre : List HostLine} (hT : T.length ≤ 63)
    (h : HostAt (Ready X L) prog (psLdata T ++ (psFinal (BitVec.ofNat 6 T.length) ++ psWait l 0)) s)
    (hprog : prog = pre ++ (psLdata T ++ (psFinal (BitVec.ofNat 6 T.length) ++ psWait l 0))) (hpre : LabelsBelow l pre) :
    Reaches s (HostAt (AtRest (Absorbing true (compressAll X (padTail T (BitVec.ofNat 64 (L + T.length)))) (L + T.length)))
      prog []) := by
  have hnb : (BitVec.ofNat 6 T.length).toNat = T.length := by simp; omega
  have htail : tail (words (T ++ List.replicate (64 - T.length) 0)) (BitVec.ofNat 6 T.length) = T := by
    rw [tail, chunk_words (by simp; omega), nbytesOf, hnb, List.take_left]
  refine h.ldata.bind fun t ht => (ht.final (BitVec.ofNat 6 T.length)).bind fun u hu => ?_
  rw [htail, hnb] at hu
  refine HostAt.wait (l := l) (x := 0) (pre := pre ++ (psLdata T ++ psFinal (BitVec.ofNat 6 T.length))) ?_
    keptWhileWaiting_absorbing (by simp [hprog]) ?_
  · simpa using hu
  · simp only [labelsBelow_append]
    exact ⟨hpre, labelsBelow_psLdata l T, labelsBelow_cmdLine l _⟩

end

/-! ### The message -/

/-- The full chunks C_1 … C_k of a message (42 R167). -/
def fullChunks (M : List Byte) : List Block := blocksOf (M.length / 64) M

/-- The tail T of a message (42 R167). -/
def messageTail (M : List Byte) : List Byte := M.drop (64 * (M.length / 64))

theorem messageProgram_eq (M : List Byte) : messageProgram M =
    psInit ++ (chunksLines 0 (fullChunks M) ++ (psLdata (messageTail M) ++
      (psFinal (BitVec.ofNat 6 (messageTail M).length) ++ psWait (M.length / 64) 0))) := by
  simp only [messageProgram, fullChunks, messageTail, Config.blockBytes, List.append_assoc]

theorem fullChunks_length (M : List Byte) : (fullChunks M).length = M.length / 64 := blocksOf_length _ M

theorem messageTail_length (M : List Byte) : (messageTail M).length = M.length % 64 := by
  rw [messageTail, List.length_drop]
  omega

/-- The chaining value after the full chunks and the padded tail is the digest's (40 R108, 41 R135). -/
theorem compressAll_message {M : List Byte} (hM : M.length ≤ 2 ^ 61 - 1) :
    compressAll (compressAll H0 (fullChunks M)) (padTail (messageTail M) (BitVec.ofNat 64 M.length)) =
      compressAll H0 (blocks (pad M)) := by
  rw [hardwareBlocksAreThePaddedBlocks M (M.length / 64) (M.length % 64) (by omega) (by omega) hM, compressAll, compressAll,
    compressAll, List.foldl_append]
  rfl

/-- In DONE the digest registers hold H (42 R166). -/
theorem digestRegisters_eq {s : State} (hp : s.phase = .done) :
    (Vector.ofFn fun i : Fin 8 => busRead (.digest i) s) = s.h := by
  ext i hi
  simp [busRead, digestWord, hp]

/-- INIT, the full chunks one by one, the tail: H is then the chaining value after the blocks of pad(M) (42 R167). -/
theorem HostAt.absorbs_message {M : List Byte} {s : State} (hM : M.length ≤ 2 ^ 61 - 1)
    (h : HostAt State.Inv (messageProgram M) (messageProgram M) s) :
    Reaches s (HostAt (AtRest (Absorbing true (compressAll H0 (blocks (pad M))) M.length)) (messageProgram M) []) := by
  have hcount := fullChunks_length M
  have htail := messageTail_length M
  have hlen : 0 + 64 * (fullChunks M).length + (messageTail M).length = M.length := by omega
  have hwhole : ∀ C ∈ fullChunks M, C.length = 64 := fun C => length_of_mem_blocksOf (by omega)
  have hinit : LabelsBelow 0 psInit := labelsBelow_cmdLine 0 _
  have hchunks := labelsBelow_chunksLines 0 (fullChunks M)
  rw [Nat.zero_add, hcount] at hchunks
  have hpre := labelsBelow_append.2 ⟨hinit.mono (Nat.zero_le (M.length / 64)), hchunks⟩
  refine HostAt.init { h with lines_eq := h.lines_eq.trans (messageProgram_eq M) } |>.bind fun t ht => ?_
  refine (ht.absorbs_chunks hwhole (by omega) (messageProgram_eq M) hinit).bind fun u hu => ?_
  have hend := hu.absorbs_tail (by omega) (by rw [messageProgram_eq, List.append_assoc]) hpre
  rwa [hlen, compressAll_message hM] at hend

/-- Settles O57: the program's end is reached in DONE, where DIGEST shows H and MSGLEN shows LEN. -/
theorem hostProtocolComputesTheDigest : Obligations.HostProtocolComputesTheDigest := by
  intro M s hM hs hreset hprog hlines
  have hstart : HostAt State.Inv (messageProgram M) (messageProgram M) s := ⟨hs, hreset, hprog, hlines⟩
  obtain ⟨n, t, hrun, hend⟩ := hstart.absorbs_message hM
  obtain ⟨habs, hp⟩ := hend.hw
  obtain ⟨hh, hdone⟩ := habs.finished hp
  refine ⟨n, t, hrun, hend.lines_eq, hdone, ?_, ?_⟩
  · rw [digestRegisters_eq hdone, hh, digest]
  · exact (congrArg BitVec.toNat (msglenHi_append_msglenLo t)).trans habs.len_eq

end Sys2Proof.Machine
end

section
/-! Errors: what error entry shows, which step enters ERROR and with which code, the length limit of BLOCK, and what ERROR
ignores until it is left (O35, O36, O37, O38, O39). -/

namespace Sys2Proof.Machine

/-! ### What ERROR shows -/

section
variable {s : State}

/-- In ERROR the only flag in STATUS is ERR, beside the code (10 R39). -/
theorem status_of_error (hp : s.phase = .error) : busRead .status s = (s.errcode.zeroExtend 32 <<< 4 ||| 4) := by
  rw [busRead, statusWord_eq_or, hp]
  simp

/-- Outside DONE no digest word is readable (42 R166). -/
theorem digest_of_not_done (hp : s.phase ≠ .done) (i : Fin 8) : busRead (.digest i) s = 0 := if_neg hp

end

/-- Settles O35: the state is that of error entry, and its phase is ERROR. -/
theorem errorEntryWritesFourFields : Obligations.ErrorEntryWritesFourFields :=
  ⟨fun e s => ⟨rfl, status_of_error (raiseError_phase e s), digest_of_not_done nofun⟩, rfl, rfl, rfl, rfl⟩

/-! ### Entering ERROR -/

/-- The code of the first check that a CMD write of `v` in phase `p` fails, if it fails one (42 R162, 60 R210). -/
def firstCheckCode (v : Word) (p : Phase) : BitVec 4 :=
  if legalWord v = false then 2 else if p = .busy then 3 else if p = .done then 4 else 1

/-- A legal command that enters ERROR raises the error of its phase: E_BUSY, E_SEQ, or E_TOO_LARGE in READY. -/
theorem CommandEffect.enters_error {s t : State} {i : Instr} (h : CommandEffect s i t) (hs : s.phase ≠ .error)
    (ht : t.phase = .error) {v : Word} (hv : legalWord v = true) :
    ∃ e, t = raiseError e s ∧ e.code = firstCheckCode v s.phase := by
  cases h with
  | start => cases ht
  | ignored _ _ hp => exact absurd hp hs
  | raised _ e _ he =>
    refine ⟨e, rfl, ?_⟩
    obtain ⟨hp, rfl⟩ | ⟨hp, rfl⟩ | ⟨hp, -, -, rfl⟩ := he <;> simp [firstCheckCode, hv, hp, ErrorCode.code]
  | block => cases ht
  | final => cases ht

/-- No internal step raises an error (60 R201). -/
theorem InternalEffect.phase_ne_error {s t : State} (h : InternalEffect s t) (hp : s.phase = .busy) : t.phase ≠ .error := by
  rw [h.phase_eq hp]
  unfold phaseWithLeft
  split
  · cases t.fin <;> nofun
  · nofun

/-- A step that enters ERROR is a CMD write, and it raises the error of the first check that the word fails. -/
theorem step_enters_error {s t : State} (h : step s = .next t) (hs : s.phase ≠ .error) (ht : t.phase = .error) :
    ∃ u v rest e, SameHw s u ∧ nextTurn s = .host ∧ s.host.lines = cmdLine v :: rest ∧ t = raiseError e u ∧
      e.code = firstCheckCode v s.phase := by
  obtain ⟨u, hu, hmove⟩ := step_cases h
  have ⟨_, _, _, _, hphase, _⟩ := hu
  rw [← hphase] at hs ⊢
  cases hmove with
  | quiet hsame =>
    obtain ⟨-, -, -, -, hsame, -⟩ := hsame
    exact absurd (hsame ▸ ht) hs
  | command v i rest hturn hl hd he =>
    obtain ⟨e, rfl, hcode⟩ := (exec_cases he).enters_error hs ht (legalWord_of_decode hd)
    exact ⟨u, v, rest, e, hu, hturn, hl, rfl, hcode⟩
  | illegal v e rest hturn hl hd he =>
    have hv : legalWord v = false := by
      rw [Bool.eq_false_iff, ne_eq, legalWord_iff, hd]
      nofun
    refine ⟨u, v, rest, .badCmd, hu, hturn, hl, ?_, by rw [firstCheckCode, if_pos hv]; rfl⟩
    rw [he, illegalCommand, if_neg hs]
  | data _ _ _ _ _ _ _ he => exact absurd (by simpa [he] using ht) hs
  | internal _ hb he => exact absurd ht ((internalStep_cases he).phase_ne_error hb)
  | reset _ he => rw [he] at ht; cases ht

/-- Settles O36: the step raises an error, and error entry leaves every other field. -/
theorem enteringErrorIsPrecise : Obligations.EnteringErrorIsPrecise := by
  intro s t h hs ht
  obtain ⟨u, v, rest, e, ⟨hh, hreg, hw, hlen, -, -, -, hfin, -, hdata⟩, hturn, hl, rfl, hcode⟩ := step_enters_error h hs ht
  exact ⟨⟨v, rest, hturn, hl, hcode⟩, rfl, rfl, hh, hlen, hfin, hdata, hw, hreg⟩

/-! ### The length limit -/

/-- BLOCK in READY raises E_TOO_LARGE iff its length check fires (42 R164). -/
theorem exec_block_eq_tooLarge_iff {s : State} (hp : s.phase = .ready) :
    exec .block s = .next (raiseError .tooLarge s) ↔ tooLarge s = true := by
  rw [exec_block_ready hp]
  cases hl : tooLarge s with
  | true => simp [blockInReady_tooLarge hl]
  | false =>
    rw [blockInReady_within_limit hl]
    refine iff_of_false (fun heq => ?_) nofun
    injection heq with heq
    simpa using congrArg State.phase heq

/-- The bit length of a message below 2^61 bytes fits in 64 bits (40 R102, R105). -/
theorem bitLength_toNat {L : BitVec 64} (h : L.toNat ≤ 2 ^ 61 - 1) : (8 * L).toNat = 8 * L.toNat := by
  rw [BitVec.toNat_mul, show (8 : BitVec 64).toNat = 8 from rfl]
  omega

/-- Settles O37: R25's bound on LEN in READY leaves BLOCK one length that is too large, and FINAL none. -/
theorem lengthLimitIsEnforcedByBlock : Obligations.LengthLimitIsEnforcedByBlock := by
  intro s hs hp
  obtain ⟨-, hle⟩ := hs.len_ready hp
  refine ⟨?_, fun nb t h => ?_⟩
  · rw [exec_block_eq_tooLarge_iff hp, tooLarge_eq_true]
    omega
  · rw [exec_final_ready hp] at h
    cases h
    have hnb := nb.isLt
    have hlen : (finalInReady nb s).len.toNat = s.len.toNat + nb.toNat := finalLen_toNat nb hle
    have hmax : (finalInReady nb s).len.toNat ≤ 2 ^ 61 - 1 := by omega
    exact ⟨nofun, hmax, by rw [bitLength_toNat hmax, hlen]⟩

/-! ### In ERROR -/

section
variable {s : State} (hp : s.phase = .error)
include hp

theorem exec_of_error {i : Instr} (hi : i ≠ .init) : exec i s = .next s := by
  obtain ⟨run, hrun⟩ := exec_checked hi s
  rw [hrun, inReady_error hp]

theorem illegalCommand_of_error : illegalCommand s = s := if_pos hp

/-- In ERROR every word but INIT's is ignored, legal or not (60 R207). -/
theorem command_of_error {v : Word} (hv : v ≠ encode .init) : command v s = .next s := by
  cases hd : decode v with
  | ok i =>
    have hi : i ≠ .init := by
      rintro rfl
      exact hv (eq_encode_of_decode hd)
    rw [command_ok hd, exec_of_error hp hi]
  | error e => rw [command_error hd, illegalCommand_of_error hp]

end

/-- Settles O38, access by access. -/
theorem errorPhaseIgnoresAllButInit : Obligations.ErrorPhaseIgnoresAllButInit := by
  intro s hp
  refine ⟨fun v => command_of_error hp, ⟨startMessage s, command_ok (decode_encode .init) s, rfl, rfl⟩, fun i v => ?_,
    status_of_error hp, digest_of_not_done (by simp [hp]), by simp [internalEnabled, hp]⟩
  exact ⟨writeData i v s, rfl, by simp, hp, rfl⟩

/-- Settles O39, by the cases of what a step can do: of the CMD writes only INIT's is not ignored. -/
theorem onlyInitOrResetLeavesError : Obligations.OnlyInitOrResetLeavesError := by
  intro s t h hp
  obtain ⟨u, ⟨-, -, -, -, hphase, -, -, -, herrcode, -⟩, hmove⟩ := step_cases h
  rw [← hphase] at hp
  rw [← herrcode]
  cases hmove with
  | quiet hsame =>
    obtain ⟨-, -, -, -, hphase, -, -, -, herrcode, -⟩ := hsame
    exact .inl ⟨hphase.trans hp, herrcode⟩
  | command v i rest ht hl hd he =>
    by_cases hi : i = .init
    · rw [eq_encode_of_decode hd, hi] at hl
      exact .inr (.inr ⟨ht, rest, hl⟩)
    · rw [exec_of_error hp hi] at he
      cases he
      exact .inl ⟨hp, rfl⟩
  | illegal v e rest ht hl hd he =>
    rw [illegalCommand_of_error hp] at he
    exact .inl ⟨he ▸ hp, by rw [he]⟩
  | data i v a rest ht hl ha he => exact .inl (by simp [he, hp])
  | internal ht hb => simp [hp] at hb
  | reset ht => exact .inr (.inl ht)

end Sys2Proof.Machine
end

section
/-! No step faults (O51): the host's lines end in a next state or a refusal, and the invariant leaves LOAD no fault. -/

namespace Sys2Proof.Machine

/-! ### The host's lines -/

/-- A write to a register completes (42 R160). -/
theorem busWrite_completes (r : Reg) (v : Word) (s : State) : ∃ t, busWrite r v s = .next t := by
  cases r with
  | cmd => exact command_completes v s
  | status | msglenLo | msglenHi | reserved i | digest i | data i => exact ⟨_, rfl⟩

theorem accessWrite_ne_fault (a : Access) (v : Word) (s : State) (f : Fault) : accessWrite a v s ≠ .fault f := by
  unfold accessWrite
  cases decodeAccess a with
  | ok r =>
    obtain ⟨t, ht⟩ := busWrite_completes r v s
    simp [ht]
  | error e => nofun

theorem accessRead_ne_fault (a : Access) (s : State) (use : Word → State → State) (f : Fault) :
    accessRead a s use ≠ .fault f := by
  unfold accessRead
  cases decodeAccess a with
  | ok r => nofun
  | error e => nofun

theorem jump_ne_fault (l : HostName) (s : State) (f : Fault) : jump l s ≠ .fault f := by
  unfold jump
  cases linesAfter l s.host.prog with
  | some ls => nofun
  | none => nofun

theorem branch_ne_fault (x : HostName) (k : Nat) (b : Bool) (l : HostName) (s : State) (f : Fault) :
    branch x k b l s ≠ .fault f := by
  unfold branch
  cases s.host.named.lookup x with
  | none => nofun
  | some v =>
    dsimp only
    split
    · nofun
    · split
      · exact jump_ne_fault l s f
      · nofun

theorem hostLine_ne_fault (line : HostLine) (s : State) (f : Fault) : hostLine line s ≠ .fault f := by
  cases line with
  | wr a v => exact accessWrite_ne_fault a v s f
  | rd a => exact accessRead_ne_fault a s observe f
  | rdTo a x => exact accessRead_ne_fault a s (fun v s => nameValue x v (observe v s)) f
  | label l => nofun
  | ifBit x k b l => exact branch_ne_fault x k b l s f

/-! ### The turns -/

theorem hostTurn_ne_fault (s : State) (f : Fault) : hostTurn s ≠ .fault f := by
  unfold hostTurn
  cases s.host.lines with
  | nil => nofun
  | cons line rest => exact hostLine_ne_fault line (setLines rest s) f

/-- The compressor's turn completes: while BUSY its step finds a whole block where it needs one (10 R32, 40 R109). -/
theorem internalTurn_completes {s : State} (hs : s.Inv) : ∃ t, internalTurn s = .next t := by
  by_cases hp : s.phase = .busy
  · rw [internalTurn_busy hp]
    exact internalStep_completes hs hp
  · exact ⟨s, internalTurn_rest hp⟩

/-- Settles O51, by whose turn it is. -/
theorem noFaultUnderTheInvariant : Obligations.NoFaultUnderTheInvariant := by
  intro s hs f
  rw [step]
  cases nextTurn s with
  | host => exact hostTurn_ne_fault (dropTurn s) f
  | internal =>
    obtain ⟨t, ht⟩ := internalTurn_completes (s := dropTurn s) (SameHw.inv (by simp [SameHw]) hs)
    simp [takeTurn, ht]
  | reset => nofun

end Sys2Proof.Machine
end

section
/-! Reset and DATA: what the reset state reads (O47), that the reset event reaches its values from every state (O48), and
that the compressor's turns commute with a DATA write (O43). -/

namespace Sys2Proof.Machine

/-! ### Reset -/

/-- An error-free READY state with LEN 0 and DATA all 0 reads 0 in every register (70 R231). -/
theorem busRead_eq_zero {s : State} (hp : s.phase = .ready) (he : s.errcode = 0) (hl : s.len = 0)
    (hd : ∀ i : Fin 16, s.data[i] = 0) (r : Reg) : busRead r s = 0 := by
  cases r with
  | cmd | reserved i => rfl
  | status => exact status_eq_zero hp he
  | msglenLo | msglenHi => simp [busRead, hl]
  | digest i => exact digest_of_not_done (by simp [hp]) i
  | data i => exact hd i

/-- The reset event clears DATA (70 R230). -/
theorem powerReset_data_get (s : State) (i : Fin 16) : (powerReset s).data[i] = 0 := by simp

/-- Settles O47: a reset leaves the reset state as it is, so its DATA is 0, and such a state reads 0 everywhere. -/
theorem resetStateReadsZero : Obligations.ResetStateReadsZero :=
  have hdata := powerReset_data_get State.reset
  ⟨rfl, rfl, rfl, rfl, rfl, rfl, rfl, hdata, busRead_eq_zero rfl rfl rfl hdata⟩

/-- Settles O48: the step is the reset event, and `powerReset` writes the values. -/
theorem resetEventFromEveryState : Obligations.ResetEventFromEveryState := by
  intro s hturn
  have hstep : step s = .next (powerReset (dropTurn s)) := by rw [step, hturn, takeTurn]
  exact ⟨_, hstep, rfl, rfl, rfl, rfl, rfl, rfl, rfl, powerReset_data_get (dropTurn s)⟩

/-! ### The compressor's turns and a DATA write -/

/-- An outcome with `f` applied to its next state; a stop stays as it is. -/
def mapNext (f : State → State) : Host.Outcome State Fault Refusal → Host.Outcome State Fault Refusal
  | .next s => .next (f s)
  | .fault r => .fault r
  | .refused r => .refused r

section
variable (i : Fin 16) (v : Word)

/-- LOAD reads Q and H, never DATA (41 R136). -/
theorem load_writeData (s : State) : load (writeData i v s) = mapNext (writeData i v) (load s) := by
  rw [load, load, writeData_q]
  cases s.q with
  | nil => rfl
  | cons B rest =>
    by_cases hB : B.length = Config.blockBytes
    · simp only [if_pos hB]; rfl
    · simp only [if_neg hB]; rfl

theorem internalStep_writeData (s : State) :
    internalStep (writeData i v s) = mapNext (writeData i v) (internalStep s) := by
  rw [internalStep, internalStep, writeData_cstate]
  cases s.cstate with
  | idle => exact load_writeData i v s
  | rnd t => rfl
  | fold => rfl

theorem internalTurn_writeData (s : State) :
    internalTurn (writeData i v s) = mapNext (writeData i v) (internalTurn s) := by
  by_cases hp : s.phase = .busy
  · rw [internalTurn_busy hp, internalTurn_busy (s := writeData i v s) hp, internalStep_writeData]
  · rw [internalTurn_rest hp, internalTurn_rest (s := writeData i v s) hp, mapNext]

/-- No turn of the compressor reads or writes DATA, so neither do n of them (70 R236). -/
theorem internalTurns_writeData (n : Nat) (s : State) :
    internalTurns n (writeData i v s) = mapNext (writeData i v) (internalTurns n s) := by
  induction n generalizing s with
  | zero => rfl
  | succ n ih =>
    rw [internalTurns, internalTurns, internalTurn_writeData]
    cases internalTurn s with
    | next t => exact ih t
    | fault f => rfl
    | refused r => rfl

end

/-- Settles O43: the turns of the written state are the turns of the state, with the word written into their answer. -/
theorem queuedWorkIsACopyOfData : Obligations.QueuedWorkIsACopyOfData := fun s i v n =>
  ⟨fun t ht => by rw [internalTurns_writeData, ht, mapNext], fun f hf => by rw [internalTurns_writeData, hf, mapNext]⟩

end Sys2Proof.Machine
end
